-- ==== Sys2Proof/Word.lean ====
section
/-! DEFINITION. The words of CORE: bytes, 16-bit operands and status registers, 64-bit command words, and bit
vectors of varying length (spec/00_scope.md R12, R13, R14; spec/30_encoding.md R100). -/

namespace Sys2Proof

/-- A byte, 0 to 255; bit `b` has weight `2^b` (00_scope.md R12). -/
abbrev Byte := BitVec 8

/-- A 16-bit scalar operand or status register (30_encoding.md R102, 10_state.md R38). -/
abbrev Word16 := BitVec 16

/-- A command word; bit 63 is the most significant (30_encoding.md R100). -/
abbrev CmdWord := BitVec 64

/-- A bit vector: a finite sequence of bits, index 0 first (00_scope.md R13). -/
abbrev Bits := List Bool

end Sys2Proof
end

