-- ==== Sys2Proof/Config.lean ====
section
/-! DEFINITION. What an instance of CORE fixes: the source's parameters (spec/00_scope.md R9) and the parameters the
spec decides (R10), each at the value this hardware takes, and the two launch parameters of the instance `State.reset`
stands for (DESIGN CHOICE, log entries 1 and 2). There is no free value: the spec leaves no result undefined. -/

namespace Sys2Proof

/-- The codec the FRM unit uses, fixed per instance (00_scope.md R9). -/
inductive Scheme where
  | crc
  | ham
  deriving DecidableEq, Repr

namespace Config

/-- First byte of every frame (00_scope.md R9). -/
abbrev startTag : Byte := 0x7B
/-- Last byte of every frame (00_scope.md R9). -/
abbrev stopTag : Byte := 0x7D
/-- Put before a payload byte that equals a tag (00_scope.md R9). -/
abbrev escTag : Byte := 0x5C
/-- Most unescaped payload bytes of a frame the sender builds (00_scope.md R9). -/
abbrev maxChunk : Nat := 8
/-- The divisor x^16 + 1: bits 0 and 16 set, 17 bits (00_scope.md R9, 10_state.md R33). -/
def gen : Bits := true :: (List.replicate 15 false ++ [true])
/-- Remainder length in bits, and the zero bits appended before division (00_scope.md R9). -/
abbrev crcLen : Nat := 16
/-- Check bits of the Hamming trailer (00_scope.md R9). -/
abbrev hamBits : Nat := 8
/-- Writable bit-vector registers, V0 to V3 (00_scope.md R10, 10_state.md R31); `VReg.index` numbers them. -/
abbrev nv : Nat := 4
/-- Capacity of a bit-vector register in bits (00_scope.md R10). -/
abbrev bvCap : Nat := 256
/-- Width of a byte address and of a byte count in a command (00_scope.md R10); the width of the type `Addr`. -/
abbrev aw : Nat := 16
/-- Bytes in MEM, `2^AW` (00_scope.md R10). -/
abbrev memSize : Nat := 2 ^ aw
/-- Most data bits the HAM unit accepts (00_scope.md R10, 42_hamming.md R214). -/
abbrev hamMaxData : Nat := 247
/-- Longest frame FRM_ENCODE writes (00_scope.md R10). -/
abbrev maxFrameLen : Nat := 20
/-- Trailer bytes in a frame (00_scope.md R10). -/
def trailerLen : Scheme → Nat
  | .crc => 2
  | .ham => 1
/-- The strap of the instance `State.reset` stands for. DESIGN CHOICE, log entry 2: the spec leaves SCHEME to the
instance (10_state.md R39). -/
def resetScheme : Scheme := .crc
/-- What an unlisted address of MEM reads as. DESIGN CHOICE, log entry 1: the spec leaves the initial MEM to the
launch (10_state.md R50). -/
abbrev memFill : Byte := 0x00

end Config

/-- A byte address or byte count of a command, or an address of a host access: AW bits, so every address exists
(00_scope.md R10, 20_memory.md R70). -/
abbrev Addr := BitVec Config.aw

end Sys2Proof
end

