-- ==== Sys2Proof/Syntax.lean ====
section
/-! DEFINITION. The instructions: the 20 commands of spec/30_encoding.md R104 and the 4 byte classes of the wire
(R111), one constructor per row of spec/opcode_table.json, and the two forms in which one reaches CORE. -/

namespace Sys2Proof

/-- A writable bit-vector register (10_state.md R31). -/
inductive VReg where
  | v0 | v1 | v2 | v3
  deriving DecidableEq, Repr

/-- The number of a register, below NV (00_scope.md R10, 10_state.md R32). -/
def VReg.index : VReg → Fin Config.nv
  | .v0 => 0
  | .v1 => 1
  | .v2 => 2
  | .v3 => 3

/-- What a source specifier names: V0 to V3, or the hard-wired VG (10_state.md R32, R33). -/
inductive VSrc where
  | reg (r : VReg)
  | vg
  deriving DecidableEq, Repr

/-- An instruction, operands in the order of the table of 30_encoding.md R104. -/
inductive Instr where
  | nop
  | diagClr
  | bvClr (rd : VReg)
  | bvGet (rs : VSrc) (idx : Word16)
  | bvSet (rd : VReg) (idx : Word16) (bit : Bool)
  | bvLoad (rd : VReg) (addr n : Addr)
  | bvStore (rs : VSrc) (addr : Addr)
  | bvXor (rd : VReg) (rs : VSrc) (off : Word16)
  | crcDiv (rd : VReg) (rs : VSrc)
  | crcRem (rs : VSrc)
  | crcAppend (rd : VReg) (rs : VSrc)
  | crcVerify (rs : VSrc)
  | hamParity (rs : VSrc)
  | hamCorrect (rd : VReg) (par : Byte)
  | hamAppend (rd : VReg) (rs : VSrc)
  | hamVerify (rd : VReg) (rs : VSrc)
  | frmEncode (src n dst : Addr)
  | frmComplete (src n : Addr)
  | frmDecode (src n dst : Addr)
  | frmSend (src n : Addr)
  /-- byte class START, 7B (30_encoding.md R111) -/
  | wireStart
  /-- byte class STOP, 7D -/
  | wireStop
  /-- byte class ESC, 5C -/
  | wireEsc
  /-- byte class DATA: any other value -/
  | wireData (x : Byte)
  deriving DecidableEq, Repr

/-- What is presented to CORE: a 64-bit command word on the command port (30_encoding.md R100), or one byte of the
wire to the escape-sequence parser (30_encoding.md R111; log entry 5). -/
inductive PortWord where
  | cmd (w : CmdWord)
  | byte (x : Byte)
  deriving DecidableEq, Repr

end Sys2Proof
end

