-- ==== Sys2Proof/WellFormed.lean ====
section
/-! DEFINITION. Which terms of `Instr` an encoding can give. The operand types leave out what 30_encoding.md R108
(d) to (g) makes illegal (a reserved or read-only register, a bit above 1, a parity above 255), so one check is left:
a DATA byte is none of the three tags (30_encoding.md R111, "DATA is what remains"). -/

namespace Sys2Proof

/-- `wireData x` stands for a byte of class DATA only when `x` is no tag (30_encoding.md R111). -/
def Instr.wellFormed : Instr → Bool
  | .wireData x => x != Config.startTag && x != Config.stopTag && x != Config.escTag
  | .nop | .diagClr | .bvClr _ | .bvGet _ _ | .bvSet _ _ _ | .bvLoad _ _ _ | .bvStore _ _ | .bvXor _ _ _
  | .crcDiv _ _ | .crcRem _ | .crcAppend _ _ | .crcVerify _ | .hamParity _ | .hamCorrect _ _ | .hamAppend _ _
  | .hamVerify _ _ | .frmEncode _ _ _ | .frmComplete _ _ | .frmDecode _ _ _ | .frmSend _ _ | .wireStart | .wireStop
  | .wireEsc => true

end Sys2Proof
end

