-- ==== Sys2Proof/Decode.lean ====
section
/-! DEFINITION. Decoding and encoding. A command word is cut into its seven fields (spec/30_encoding.md R100) and read
by the opcode map of R104; a word that R108 calls illegal decodes to nothing. A wire byte is classed by value (R111).
The encoder is written from the same map. `cmdRows` is the machine-readable table of R125. -/

namespace Sys2Proof

/-- The fields of a command word (30_encoding.md R100). -/
structure Fields where
  op : BitVec 8
  rd : BitVec 3
  rs : BitVec 3
  z : BitVec 2
  a : Word16
  b : Word16
  c : Word16
  deriving DecidableEq, Repr

/-- Cut a command word into fields: op 63:56, rd 55:53, rs 52:50, z 49:48, a 47:32, b 31:16, c 15:0 (R100). -/
def fieldsOf (w : CmdWord) : Fields where
  op := w.extractLsb' 56 8
  rd := w.extractLsb' 53 3
  rs := w.extractLsb' 50 3
  z := w.extractLsb' 48 2
  a := w.extractLsb' 32 16
  b := w.extractLsb' 16 16
  c := w.extractLsb' 0 16

/-- The word with the given fields, most significant first (R100). -/
def packFields (f : Fields) : CmdWord :=
  f.op ++ f.rd ++ f.rs ++ f.z ++ f.a ++ f.b ++ f.c

/-- A destination specifier: 0 to 3; 4 to 6 are reserved and VG (7) is read-only (30_encoding.md R101, R108). -/
def destReg (x : BitVec 3) : Option VReg :=
  match x with
  | 0#3 => some .v0
  | 1#3 => some .v1
  | 2#3 => some .v2
  | 3#3 => some .v3
  | _ => none

/-- A source specifier: 0 to 3 or VG (7); 4 to 6 are reserved (30_encoding.md R101). -/
def srcReg (x : BitVec 3) : Option VSrc :=
  match x with
  | 0#3 => some (.reg .v0)
  | 1#3 => some (.reg .v1)
  | 2#3 => some (.reg .v2)
  | 3#3 => some (.reg .v3)
  | 7#3 => some .vg
  | _ => none

/-- The command a word with no register field stands for, if the unused fields are 0. -/
def whenZero (unusedZero : Bool) (i : Instr) : Option Instr :=
  if unusedZero then some i else none

/-- The command of a word whose register field `rd` is used. -/
def withDest (unusedZero : Bool) (f : Fields) (mk : VReg → Instr) : Option Instr :=
  match destReg f.rd with
  | some rd => whenZero unusedZero (mk rd)
  | none => none

/-- The command of a word whose register field `rs` is used. -/
def withSrc (unusedZero : Bool) (f : Fields) (mk : VSrc → Instr) : Option Instr :=
  match srcReg f.rs with
  | some rs => whenZero unusedZero (mk rs)
  | none => none

/-- The command of a word that uses both register fields. -/
def withDestSrc (unusedZero : Bool) (f : Fields) (mk : VReg → VSrc → Instr) : Option Instr :=
  match destReg f.rd, srcReg f.rs with
  | some rd, some rs => whenZero unusedZero (mk rd rs)
  | _, _ => none

/-- The opcode map of 30_encoding.md R104, with the zero tests of R103 on the fields a command does not use and the
tests of R108 (f), (g). Every other opcode is reserved (R107). -/
def decodeFields (f : Fields) : Option Instr :=
  match f.op with
  | 0x00#8 => whenZero (f.rd == 0 && f.rs == 0 && f.z == 0 && f.a == 0 && f.b == 0 && f.c == 0) .nop
  | 0x01#8 => whenZero (f.rd == 0 && f.rs == 0 && f.z == 0 && f.a == 0 && f.b == 0 && f.c == 0) .diagClr
  | 0x10#8 => withDest (f.rs == 0 && f.z == 0 && f.a == 0 && f.b == 0 && f.c == 0) f .bvClr
  | 0x11#8 => withSrc (f.rd == 0 && f.z == 0 && f.b == 0 && f.c == 0) f (.bvGet · f.a)
  | 0x12#8 => withDest (f.rs == 0 && f.z == 0 && f.b >>> 1 == 0 && f.c == 0) f (.bvSet · f.a (f.b.getLsbD 0))
  | 0x13#8 => withDest (f.rs == 0 && f.z == 0 && f.c == 0) f (.bvLoad · f.a f.b)
  | 0x14#8 => withSrc (f.rd == 0 && f.z == 0 && f.b == 0 && f.c == 0) f (.bvStore · f.a)
  | 0x15#8 => withDestSrc (f.z == 0 && f.b == 0 && f.c == 0) f (.bvXor · · f.a)
  | 0x20#8 => withDestSrc (f.z == 0 && f.a == 0 && f.b == 0 && f.c == 0) f .crcDiv
  | 0x21#8 => withSrc (f.rd == 0 && f.z == 0 && f.a == 0 && f.b == 0 && f.c == 0) f .crcRem
  | 0x22#8 => withDestSrc (f.z == 0 && f.a == 0 && f.b == 0 && f.c == 0) f .crcAppend
  | 0x23#8 => withSrc (f.rd == 0 && f.z == 0 && f.a == 0 && f.b == 0 && f.c == 0) f .crcVerify
  | 0x30#8 => withSrc (f.rd == 0 && f.z == 0 && f.a == 0 && f.b == 0 && f.c == 0) f .hamParity
  | 0x31#8 => withDest (f.rs == 0 && f.z == 0 && f.a >>> 8 == 0 && f.b == 0 && f.c == 0) f
      (.hamCorrect · (f.a.setWidth 8))
  | 0x32#8 => withDestSrc (f.z == 0 && f.a == 0 && f.b == 0 && f.c == 0) f .hamAppend
  | 0x33#8 => withDestSrc (f.z == 0 && f.a == 0 && f.b == 0 && f.c == 0) f .hamVerify
  | 0x40#8 => whenZero (f.rd == 0 && f.rs == 0 && f.z == 0) (.frmEncode f.a f.b f.c)
  | 0x41#8 => whenZero (f.rd == 0 && f.rs == 0 && f.z == 0 && f.c == 0) (.frmComplete f.a f.b)
  | 0x42#8 => whenZero (f.rd == 0 && f.rs == 0 && f.z == 0) (.frmDecode f.a f.b f.c)
  | 0x43#8 => whenZero (f.rd == 0 && f.rs == 0 && f.z == 0 && f.c == 0) (.frmSend f.a f.b)
  | _ => none

/-- Decode a command word: exactly one command, or illegal (30_encoding.md R108). -/
def decodeCmd (w : CmdWord) : Option Instr :=
  decodeFields (fieldsOf w)

/-- The class of a wire byte, tested in the order START, STOP, ESC; DATA is what remains (30_encoding.md R111). -/
def decodeByte (x : Byte) : Instr :=
  if x = Config.startTag then .wireStart
  else if x = Config.stopTag then .wireStop
  else if x = Config.escTag then .wireEsc
  else .wireData x

/-- What a presented word stands for, if anything. -/
def decode : PortWord → Option Instr
  | .cmd w => decodeCmd w
  | .byte x => some (decodeByte x)

/-- The specifier of a writable register (30_encoding.md R101). -/
def VReg.spec (r : VReg) : BitVec 3 := BitVec.ofNat 3 r.index

/-- The specifier of a source (30_encoding.md R101). -/
def VSrc.spec : VSrc → BitVec 3
  | .reg r => r.spec
  | .vg => 7

/-- The fields of a command of the form "opcode and register fields". -/
def regFields (op : BitVec 8) (rd rs : BitVec 3) : Fields := ⟨op, rd, rs, 0, 0, 0, 0⟩

/-- The encoder: the opcode and used fields of 30_encoding.md R104, every other field 0; a wire byte for a byte
class (R111). -/
def encode : Instr → PortWord
  | .nop => .cmd (packFields (regFields 0x00 0 0))
  | .diagClr => .cmd (packFields (regFields 0x01 0 0))
  | .bvClr rd => .cmd (packFields (regFields 0x10 rd.spec 0))
  | .bvGet rs idx => .cmd (packFields ⟨0x11, 0, rs.spec, 0, idx, 0, 0⟩)
  | .bvSet rd idx bit => .cmd (packFields ⟨0x12, rd.spec, 0, 0, idx, if bit then 1 else 0, 0⟩)
  | .bvLoad rd addr n => .cmd (packFields ⟨0x13, rd.spec, 0, 0, addr, n, 0⟩)
  | .bvStore rs addr => .cmd (packFields ⟨0x14, 0, rs.spec, 0, addr, 0, 0⟩)
  | .bvXor rd rs off => .cmd (packFields ⟨0x15, rd.spec, rs.spec, 0, off, 0, 0⟩)
  | .crcDiv rd rs => .cmd (packFields (regFields 0x20 rd.spec rs.spec))
  | .crcRem rs => .cmd (packFields (regFields 0x21 0 rs.spec))
  | .crcAppend rd rs => .cmd (packFields (regFields 0x22 rd.spec rs.spec))
  | .crcVerify rs => .cmd (packFields (regFields 0x23 0 rs.spec))
  | .hamParity rs => .cmd (packFields (regFields 0x30 0 rs.spec))
  | .hamCorrect rd par => .cmd (packFields ⟨0x31, rd.spec, 0, 0, par.setWidth 16, 0, 0⟩)
  | .hamAppend rd rs => .cmd (packFields (regFields 0x32 rd.spec rs.spec))
  | .hamVerify rd rs => .cmd (packFields (regFields 0x33 rd.spec rs.spec))
  | .frmEncode src n dst => .cmd (packFields ⟨0x40, 0, 0, 0, src, n, dst⟩)
  | .frmComplete src n => .cmd (packFields ⟨0x41, 0, 0, 0, src, n, 0⟩)
  | .frmDecode src n dst => .cmd (packFields ⟨0x42, 0, 0, 0, src, n, dst⟩)
  | .frmSend src n => .cmd (packFields ⟨0x43, 0, 0, 0, src, n, 0⟩)
  | .wireStart => .byte Config.startTag
  | .wireStop => .byte Config.stopTag
  | .wireEsc => .byte Config.escTag
  | .wireData x => .byte x

/-- The presented word whose bits are `w`, as spec/opcode_table.json counts them: a row of 8 bits is a wire byte,
a row of 64 bits a command word (30_encoding.md R125; log entry 18). -/
def portWordOf (nbits w : Nat) : PortWord :=
  if nbits ≤ 8 then .byte (BitVec.ofNat 8 w) else .cmd (BitVec.ofNat 64 w)

/-- The instruction the decoder reads from an instruction of the opcode table whose bits are `w`. -/
def decodeTableWord (nbits w : Nat) : Option Instr :=
  decode (portWordOf nbits w)

/-- A row of the machine-readable table for a command: `mask` has a 1 on every fixed bit (30_encoding.md R125). -/
structure CmdRow where
  mnemonic : String
  pattern : CmdWord
  mask : CmdWord
  deriving DecidableEq, Repr

/-- A word is of a row when its fixed bits are the row's (30_encoding.md R125). -/
def CmdRow.matches (r : CmdRow) (w : CmdWord) : Bool := w &&& r.mask == r.pattern

/-- The CMD rows of spec/opcode_table.json (30_encoding.md R105, R125). -/
def cmdRows : List CmdRow :=
  [
    ⟨"NOP", 0x0000000000000000, 0xFFFFFFFFFFFFFFFF⟩,
    ⟨"DIAG_CLR", 0x0100000000000000, 0xFFFFFFFFFFFFFFFF⟩,
    ⟨"BV_CLR", 0x1000000000000000, 0xFF1FFFFFFFFFFFFF⟩,
    ⟨"BV_GET", 0x1100000000000000, 0xFFE30000FFFFFFFF⟩,
    ⟨"BV_SET", 0x1200000000000000, 0xFF1F0000FFFEFFFF⟩,
    ⟨"BV_LOAD", 0x1300000000000000, 0xFF1F00000000FFFF⟩,
    ⟨"BV_STORE", 0x1400000000000000, 0xFFE30000FFFFFFFF⟩,
    ⟨"BV_XOR", 0x1500000000000000, 0xFF030000FFFFFFFF⟩,
    ⟨"CRC_DIV", 0x2000000000000000, 0xFF03FFFFFFFFFFFF⟩,
    ⟨"CRC_REM", 0x2100000000000000, 0xFFE3FFFFFFFFFFFF⟩,
    ⟨"CRC_APPEND", 0x2200000000000000, 0xFF03FFFFFFFFFFFF⟩,
    ⟨"CRC_VERIFY", 0x2300000000000000, 0xFFE3FFFFFFFFFFFF⟩,
    ⟨"HAM_PARITY", 0x3000000000000000, 0xFFE3FFFFFFFFFFFF⟩,
    ⟨"HAM_CORRECT", 0x3100000000000000, 0xFF1FFF00FFFFFFFF⟩,
    ⟨"HAM_APPEND", 0x3200000000000000, 0xFF03FFFFFFFFFFFF⟩,
    ⟨"HAM_VERIFY", 0x3300000000000000, 0xFF03FFFFFFFFFFFF⟩,
    ⟨"FRM_ENCODE", 0x4000000000000000, 0xFFFF000000000000⟩,
    ⟨"FRM_COMPLETE", 0x4100000000000000, 0xFFFF00000000FFFF⟩,
    ⟨"FRM_DECODE", 0x4200000000000000, 0xFFFF000000000000⟩,
    ⟨"FRM_SEND", 0x4300000000000000, 0xFFFF00000000FFFF⟩
  ]

/-- The mnemonic of an instruction, as spec/opcode_table.json spells it (30_encoding.md R104, R111). -/
def Instr.mnemonic : Instr → String
  | .nop => "NOP"
  | .diagClr => "DIAG_CLR"
  | .bvClr _ => "BV_CLR"
  | .bvGet _ _ => "BV_GET"
  | .bvSet _ _ _ => "BV_SET"
  | .bvLoad _ _ _ => "BV_LOAD"
  | .bvStore _ _ => "BV_STORE"
  | .bvXor _ _ _ => "BV_XOR"
  | .crcDiv _ _ => "CRC_DIV"
  | .crcRem _ => "CRC_REM"
  | .crcAppend _ _ => "CRC_APPEND"
  | .crcVerify _ => "CRC_VERIFY"
  | .hamParity _ => "HAM_PARITY"
  | .hamCorrect _ _ => "HAM_CORRECT"
  | .hamAppend _ _ => "HAM_APPEND"
  | .hamVerify _ _ => "HAM_VERIFY"
  | .frmEncode _ _ _ => "FRM_ENCODE"
  | .frmComplete _ _ => "FRM_COMPLETE"
  | .frmDecode _ _ _ => "FRM_DECODE"
  | .frmSend _ _ => "FRM_SEND"
  | .wireStart => "START"
  | .wireStop => "STOP"
  | .wireEsc => "ESC"
  | .wireData _ => "DATA"

end Sys2Proof
end

