-- ==== Sys2Proof/Machine/BvUnit.lean ====
section
/-! DEFINITION. The pure functions of the bit-vector unit (spec/40_bitvector.md R141 to R143) and the conversions
between bytes and bits (spec/20_memory.md R71, R72). -/

namespace Sys2Proof.Machine

/-- `getBit(v, i)`: bit `i`, or 0 beyond the end (40_bitvector.md R141). -/
def getBit (v : Bits) (i : Nat) : Bool := v.getD i false

/-- `setBit(v, i, x)`: write a bit, growing the vector with zeros up to `i` (40_bitvector.md R142). -/
def setBit : Bits → Nat → Bool → Bits
  | [], 0, x => [x]
  | [], i + 1, x => false :: setBit [] i x
  | _ :: v, 0, x => x :: v
  | b :: v, i + 1, x => b :: setBit v i x

/-- `xorAt(v, w, off)`: for j in order, XOR `w[j]` into bit `off + j` of the vector (40_bitvector.md R143). -/
def xorAt : Bits → Bits → Nat → Bits
  | v, [], _ => v
  | v, b :: w, off => xorAt (setBit v off (getBit v off ^^ b)) w (off + 1)

/-- Bit `i` flipped (42_hamming.md R205). -/
def flipBit (v : Bits) (i : Nat) : Bits := setBit v i (!getBit v i)

/-- The bits of a byte, least significant first (20_memory.md R71). -/
def byteBits (x : Byte) : Bits := (List.range 8).map x.getLsbD

/-- `bits(B)`: bit `8k + b` is bit `b` of byte `k` (20_memory.md R71). -/
def bits (B : List Byte) : Bits := B.flatMap byteBits

/-- The number whose bit `j` (weight `2^j`) is bit `j` of the vector. -/
def bitsToNat : Bits → Nat
  | [] => 0
  | b :: v => b.toNat + 2 * bitsToNat v

/-- `bytes(v)`: `ceil(len/8)` bytes; bit `b` of byte `k` is bit `8k + b` of the vector, 0 beyond the end
(20_memory.md R72). -/
def bytes (v : Bits) : List Byte :=
  (List.range ((v.length + 7) / 8)).map fun k => BitVec.ofNat 8 (bitsToNat ((v.drop (8 * k)).take 8))

end Sys2Proof.Machine
end

