-- ==== Sys2Proof/Machine/State.lean ====
section
/-! DEFINITION. The architectural state of CORE (spec/10_state.md R30), the parser state of the byte-at-a-time view
(R37), the list of the host's pending moves (spec/70_reset_and_hazards.md R346), and reset (R331). Plain data. -/

namespace Sys2Proof.Machine

/-- The class of a Hamming correction (10_state.md R41). -/
inductive HamClass where
  | noError
  | dataCorrected
  | checkBitError
  | outOfRange
  deriving DecidableEq, Repr

/-- The error kinds: a check on the data failed (60_exceptions.md R291, codes 1 to 5). -/
inductive ErrKind where
  | missingStartTag
  | crcMismatch
  | malformedEscape
  | noStopTag
  | tooShort
  deriving DecidableEq, Repr

/-- The refusal codes: the command itself has no meaning (60_exceptions.md R291, codes 8 to 12). -/
inductive RefuseCode where
  | illegalCommand
  | addrRange
  | bvOverflow
  | chunkLength
  | hamRange
  deriving DecidableEq, Repr

/-- The states of the escape-sequence parser (43_framing.md R237); `missingStart` is the stop with MissingStartTag. -/
inductive ParserPhase where
  | start
  | data
  | esc
  | done
  | missingStart
  deriving DecidableEq, Repr

/-- The escape-sequence parser between two bytes: its state, the output list `copy`, and the number of bytes it has
read, which is the index `i` of the next one (43_framing.md R237, 10_state.md R37). -/
structure Parser where
  phase : ParserPhase
  copy : List Byte
  index : Nat
  deriving DecidableEq, Repr

/-- The parser before the first byte: S_START, empty copy, index 0 (43_framing.md R237). -/
def Parser.fresh : Parser := ⟨.start, [], 0⟩

/-- MEM as the list of its cells: addresses strictly rising, no cell equal to what an unlisted address reads as
(`Memory.wf` in Machine/Ops.lean). -/
abbrev Memory := List Host.Cell

/-- What the host can read between commands: a status register by number 0 to 5, a bit-vector register, tx_log, a
byte of MEM (44_system.md R283). -/
inductive ReadPort where
  | status (n : Fin 6)
  | vreg (r : VReg)
  | txLog
  | mem (a : Addr)
  deriving DecidableEq, Repr

/-- A move of the host between commands (70_reset_and_hazards.md R346): (a) `read`, (b) `writeMem`, (c) `takeTx`,
(d) `present` of a command word, (e) `reset`. `present` of a wire byte and `newBuffer` drive the parser one byte at a
time (10_state.md R37; DESIGN CHOICE, log entries 5 and 7). -/
inductive HostMove where
  | read (p : ReadPort)
  | writeMem (a : Addr) (x : Byte)
  | takeTx (n : Nat)
  | present (p : PortWord)
  | reset
  | newBuffer
  deriving DecidableEq, Repr

/-- The state. `v0` to `diag`, `txLog` and `mem` are the components of 10_state.md R30 (VG is the constant
`Config.gen`, R33); `parser` is the parser state a byte-at-a-time model keeps (R37, log entry 5); `host` is the
model's own: the host's pending moves, oldest first (R36, log entry 3). -/
structure State where
  v0 : Bits
  v1 : Bits
  v2 : Bits
  v3 : Bits
  cfg : Word16
  status : Word16
  res : Word16
  rlen : Word16
  synd : Byte
  diag : Byte
  txLog : List (List Byte)
  mem : Memory
  parser : Parser
  host : List HostMove
  deriving DecidableEq, Repr

/-- Reasons to stop with a fault. There is none: every outcome of CORE is a code in STATUS and "the next command is
taken normally" (60_exceptions.md R290, R300), so no meaning and no step raises a fault. -/
inductive Fault where
  deriving DecidableEq, Repr

/-- Reasons to stop without a meaning. -/
inductive Refusal where
  /-- Raised by `exec`'s arm of an instruction that has no meaning yet (safe). No arm does: every row of
  spec/opcode_table.json has its meaning. A command CORE refuses (60_exceptions.md R296) is a next state, not this. -/
  | notModelled (mnemonic : String)
  deriving DecidableEq, Repr

/-- The CFG register of an instance with the given strap: SCHEME in bit 0, the rest 0 (10_state.md R39). -/
def cfgOf : Scheme → Word16
  | .crc => 0
  | .ham => 1

/-- The state after reset of an instance with strap `sc` whose MEM holds `m`: 70_reset_and_hazards.md R331 and
10_state.md R50. MEM is not touched by reset. The parser does not exist between commands (R331): it is fresh. -/
def State.resetFor (sc : Scheme) (m : Memory) : State where
  v0 := []
  v1 := []
  v2 := []
  v3 := []
  cfg := cfgOf sc
  status := 0
  res := 0
  rlen := 0
  synd := 0
  diag := 0
  txLog := []
  mem := m
  parser := Parser.fresh
  host := []

/-- Right after reset: the instance of `Config.resetScheme`, no cell of MEM listed, no pending move. The strap and the
initial MEM are the model's choice (DESIGN CHOICE, log entries 1 and 2); everything else is R331's. -/
def State.reset : State := State.resetFor Config.resetScheme []

end Sys2Proof.Machine
end

