-- ==== Sys2Proof/Machine/Flags.lean ====
section
/-! DEFINITION. The status computations: the outcome codes (spec/60_exceptions.md R291), the word STATUS takes
(spec/10_state.md R40, R41, R52), the DIAG bits (R45), and the fields read back. -/

namespace Sys2Proof.Machine

/-- STATUS.ERR of an error kind (60_exceptions.md R291). -/
def ErrKind.code : ErrKind → Nat
  | .missingStartTag => 1
  | .crcMismatch => 2
  | .malformedEscape => 3
  | .noStopTag => 4
  | .tooShort => 5

/-- STATUS.ERR of a refusal (60_exceptions.md R291). -/
def RefuseCode.code : RefuseCode → Nat
  | .illegalCommand => 8
  | .addrRange => 9
  | .bvOverflow => 10
  | .chunkLength => 11
  | .hamRange => 12

/-- STATUS.HCLASS of a class (10_state.md R41). -/
def HamClass.code : HamClass → Nat
  | .noError => 0
  | .dataCorrected => 1
  | .checkBitError => 2
  | .outOfRange => 3

/-- The whole of STATUS: ERR in bits 3:0, HCLASS in bits 5:4, the rest 0 (10_state.md R40). -/
def statusWord (err : Nat) (cls : HamClass) : Word16 := BitVec.ofNat 16 (err + 16 * cls.code)

/-- Field STATUS.ERR (10_state.md R40). -/
def State.err (s : State) : Nat := (s.status.extractLsb' 0 4).toNat

/-- Field STATUS.HCLASS (10_state.md R40). -/
def State.hclass (s : State) : Nat := (s.status.extractLsb' 4 2).toNat

/-- Field CFG.SCHEME: 0 is CRC, 1 is HAM (10_state.md R39). -/
def State.scheme (s : State) : Scheme := if s.cfg.getLsbD 0 then .ham else .crc

/-- The DIAG bit of an error kind (10_state.md R45, 60_exceptions.md R291). -/
def ErrKind.diagBit : ErrKind → Nat
  | .missingStartTag => 0
  | .crcMismatch => 1
  | .malformedEscape => 3
  | .noStopTag => 4
  | .tooShort => 5

/-- DIAG bit 2, HAM_SYNDROME (10_state.md R45). -/
def diagHamSyndrome : Nat := 2

/-- DIAG bit 6, REFUSED (10_state.md R45). -/
def diagRefused : Nat := 6

/-- DIAG with bit `k` OR-ed in (10_state.md R45). -/
def orDiag (d : Byte) (k : Nat) : Byte := d ||| BitVec.ofNat 8 (2 ^ k)

end Sys2Proof.Machine
end

