-- ==== Sys2Proof/Machine/Operands.lean ====
section
/-! DEFINITION. The operand forms: reading a source register, reading and writing a destination register
(spec/10_state.md R31 to R33, spec/00_scope.md R16 `V[r]`). Scalars are used as they stand (30_encoding.md R102). -/

namespace Sys2Proof.Machine

/-- `V[r]` for a writable register (00_scope.md R16). -/
def State.readV (s : State) : VReg → Bits
  | .v0 => s.v0
  | .v1 => s.v1
  | .v2 => s.v2
  | .v3 => s.v3

/-- `V[r] <- v` (00_scope.md R16): the register is wholly replaced. -/
def State.writeV (s : State) (r : VReg) (v : Bits) : State :=
  match r with
  | .v0 => { s with v0 := v }
  | .v1 => { s with v1 := v }
  | .v2 => { s with v2 := v }
  | .v3 => { s with v3 := v }

/-- `V[rs]`: a register, or VG, which is hard-wired to GEN (10_state.md R33). -/
def State.readSrc (s : State) : VSrc → Bits
  | .reg r => s.readV r
  | .vg => Config.gen

end Sys2Proof.Machine
end

