-- ==== Sys2Proof/Machine/Ops.lean ====
section
/-! DEFINITION. The shared operations: MEM read and written (spec/00_scope.md R16, spec/20_memory.md R74, R78), the
three ways a command ends (spec/60_exceptions.md R290, R296, R297), and the host's own moves
(spec/70_reset_and_hazards.md R346). CORE has no trap (60_exceptions.md R300): `refuse` and `fail` are what stands in
the place of taking an exception, and there is nothing to return from. -/

namespace Sys2Proof.Machine

/-- The canonical form of MEM: addresses strictly rising, no cell equal to what an unlisted address reads as. -/
abbrev Memory.wf (m : Memory) : Prop :=
  m.Pairwise (fun c d => c.1 < d.1) ∧ ∀ c ∈ m, c.2 ≠ Config.memFill

/-- Every listed address exists: addresses 0 to MEM_SIZE - 1 (10_state.md R48). -/
abbrev Memory.inRange (m : Memory) : Prop := ∀ c ∈ m, c.1 < Config.memSize

/-- `MEM[a]`. -/
def Memory.read : Memory → Nat → Byte
  | [], _ => Config.memFill
  | (k, x) :: m, a => if k = a then x else Memory.read m a

/-- Put a cell before the first cell of a higher address. -/
def Memory.insertCell (c : Host.Cell) : Memory → Memory
  | [] => [c]
  | d :: m => if c.1 < d.1 then c :: d :: m else d :: Memory.insertCell c m

/-- `MEM[a] <- x`, keeping the canonical form. -/
def Memory.write (m : Memory) (a : Nat) (x : Byte) : Memory :=
  if x = Config.memFill then m.filter (·.1 ≠ a) else Memory.insertCell (a, x) (m.filter (·.1 ≠ a))

/-- `MemRead(addr, n)`: the bytes at addr to addr + n - 1 (00_scope.md R16). -/
def Memory.readBytes (m : Memory) (addr : Nat) : Nat → List Byte
  | 0 => []
  | n + 1 => m.read addr :: Memory.readBytes m (addr + 1) n

/-- `MemWrite(addr, n, B)`: the bytes of `B` at addr to addr + n - 1 (00_scope.md R16). -/
def Memory.writeBytes (m : Memory) (addr : Nat) : List Byte → Memory
  | [] => m
  | x :: B => Memory.writeBytes (m.write addr x) (addr + 1) B

/-- The range (addr, n) lies in MEM: `addr + n <= MEM_SIZE` on naturals (20_memory.md R74). -/
def inMem (addr n : Nat) : Bool := addr + n ≤ Config.memSize

/-- A byte or frame count, or a number of consumed bytes, as a 16-bit register holds it (10_state.md R42, R43). -/
def count16 (n : Nat) : Word16 := BitVec.ofNat 16 n

/-- What a command or a step answers. -/
abbrev Result := Host.Outcome State Fault Refusal

/-- Success of a command that performs no Hamming correction: STATUS <- 0 (10_state.md R52, 60_exceptions.md R290). -/
def succeed (s : State) : Result := .next { s with status := statusWord 0 .noError }

/-- Success of a command that performed a Hamming correction with the given syndrome and class: SYND, HCLASS, and
DIAG.HAM_SYNDROME if the syndrome is not 0; ERR stays 0 (42_hamming.md R208, 60_exceptions.md R292). -/
def succeedHam (syn : Byte) (cls : HamClass) (s : State) : Result :=
  .next { s with
    synd := syn
    status := statusWord 0 cls
    diag := if syn = 0 then s.diag else orDiag s.diag diagHamSyndrome }

/-- `refuse <Code>`: nothing changes but STATUS and DIAG.REFUSED (60_exceptions.md R296). -/
def refuse (c : RefuseCode) (s : State) : Result :=
  .next { s with status := statusWord c.code .noError, diag := orDiag s.diag diagRefused }

/-- `fail <Kind>`: STATUS and the kind's DIAG bit; the recorded results are already in `s` (60_exceptions.md R297). -/
def fail (k : ErrKind) (s : State) : Result :=
  .next { s with status := statusWord k.code .noError, diag := orDiag s.diag k.diagBit }

/-- The host writes a byte of MEM (70_reset_and_hazards.md R346 (b)). -/
def hostWriteMem (a : Addr) (x : Byte) (s : State) : Result :=
  .next { s with mem := s.mem.write a.toNat x }

/-- The host takes entries from the front of tx_log (70_reset_and_hazards.md R346 (c)). -/
def hostTakeTx (n : Nat) (s : State) : Result :=
  .next { s with txLog := s.txLog.drop n }

/-- Reset (70_reset_and_hazards.md R331): the strap and MEM stay, the host's further moves stay the host's. -/
def hostReset (s : State) : Result :=
  .next { State.resetFor s.scheme s.mem with host := s.host }

/-- A new buffer for the byte-at-a-time parser: it starts from S_START with an empty copy (43_framing.md R237; DESIGN
CHOICE, log entry 7). -/
def hostNewBuffer (s : State) : Result :=
  .next { s with parser := Parser.fresh }

/-- A read has no side effect (44_system.md R283). -/
def hostRead (_ : ReadPort) (s : State) : Result := .next s

/-- A word that decodes to nothing is refused with IllegalCommand (30_encoding.md R108). -/
def illegalWord (s : State) : Result := refuse .illegalCommand s

/-- What the host reads: a number, a bit vector, or the list of sent frames (44_system.md R283). -/
inductive ReadValue where
  | word (n : Nat)
  | vector (v : Bits)
  | frames (l : List (List Byte))
  deriving DecidableEq, Repr

/-- The status registers by number: 0 CFG, 1 STATUS, 2 RES, 3 RLEN, 4 SYND, 5 DIAG (10_state.md R38). -/
def State.statusReg (s : State) : Fin 6 → Nat
  | 0 => s.cfg.toNat
  | 1 => s.status.toNat
  | 2 => s.res.toNat
  | 3 => s.rlen.toNat
  | 4 => s.synd.toNat
  | 5 => s.diag.toNat

/-- The status port: the projections of the state the host can read between commands (44_system.md R283). -/
def State.hostValue (s : State) : ReadPort → ReadValue
  | .status n => .word (s.statusReg n)
  | .vreg r => .vector (s.readV r)
  | .txLog => .frames s.txLog
  | .mem a => .word (s.mem.read a.toNat).toNat

end Sys2Proof.Machine
end

