-- ==== Sys2Proof/Machine/Bv.lean ====
section
/-! DEFINITION. The commands of the bit-vector unit (spec/40_bitvector.md R145 to R150). -/

namespace Sys2Proof.Machine

/-- BV_CLR rd (40_bitvector.md R145). -/
def execBvClr (rd : VReg) (s : State) : Result := succeed (s.writeV rd [])

/-- BV_GET rs, idx (40_bitvector.md R146): an index beyond the end reads 0. -/
def execBvGet (rs : VSrc) (idx : Word16) (s : State) : Result :=
  succeed { s with res := if getBit (s.readSrc rs) idx.toNat then 1 else 0 }

/-- BV_SET rd, idx, bit (40_bitvector.md R147): an index of BV_CAP or more is refused. -/
def execBvSet (rd : VReg) (idx : Word16) (bit : Bool) (s : State) : Result :=
  if Config.bvCap ≤ idx.toNat then refuse .bvOverflow s
  else succeed (s.writeV rd (setBit (s.readV rd) idx.toNat bit))

/-- BV_LOAD rd, addr, n (40_bitvector.md R148): range, then capacity. -/
def execBvLoad (rd : VReg) (addr n : Addr) (s : State) : Result :=
  if !inMem addr.toNat n.toNat then refuse .addrRange s
  else if Config.bvCap < 8 * n.toNat then refuse .bvOverflow s
  else succeed (s.writeV rd (bits (s.mem.readBytes addr.toNat n.toNat)))

/-- BV_STORE rs, addr (40_bitvector.md R149): the destination range is checked before the first byte is written. -/
def execBvStore (rs : VSrc) (addr : Addr) (s : State) : Result :=
  let B := bytes (s.readSrc rs)
  if !inMem addr.toNat B.length then refuse .addrRange s
  else succeed { s with mem := s.mem.writeBytes addr.toNat B, rlen := count16 B.length }

/-- BV_XOR rd, rs, off (40_bitvector.md R150): an empty source changes nothing and is not checked. -/
def execBvXor (rd : VReg) (rs : VSrc) (off : Word16) (s : State) : Result :=
  let w := s.readSrc rs
  if 0 < w.length ∧ Config.bvCap < off.toNat + w.length then refuse .bvOverflow s
  else succeed (s.writeV rd (xorAt (s.readV rd) w off.toNat))

end Sys2Proof.Machine
end

