-- ==== Sys2Proof/Machine/CrcUnit.lean ====
section
/-! DEFINITION. The pure functions of the CRC unit (spec/41_crc.md R171 to R174), for any generator; the hardware's
are those of `Config.gen`. -/

namespace Sys2Proof.Machine

/-- `k` iterations of the division loop from window index `i` (41_crc.md R171): where the leading bit of the window is
1, XOR the divisor into the window; advance. -/
def polydivLoop (g : Bits) : Nat → Nat → Bits → Bits
  | 0, _, D => D
  | k + 1, i, D => polydivLoop g k (i + 1) (if getBit D i then xorAt D g i else D)

/-- Long division of `D` by `g`: the loop runs while the window fits, `i + len(g) <= len(D)` (41_crc.md R171). -/
def polydivBy (g D : Bits) : Bits := polydivLoop g (D.length + 1 - g.length) 0 D

/-- The `len(g) - 1` remainder bits of the zero-augmented dividend (41_crc.md R172). -/
def crcRemBy (g v : Bits) : Bits :=
  ((polydivBy g (v ++ List.replicate (g.length - 1) false)).drop v.length).take (g.length - 1)

/-- The systematic codeword (41_crc.md R173). -/
def crcAppendBy (g v : Bits) : Bits := v ++ crcRemBy g v

/-- The check: the codeword, divided as it stands, leaves all zeros (41_crc.md R174). -/
def crcOkBy (g c : Bits) : Bool := (polydivBy g c).all (! ·)

/-- `polydiv(D)` (41_crc.md R171). -/
def polydiv (D : Bits) : Bits := polydivBy Config.gen D

/-- `crcRem(v)` (41_crc.md R172). -/
def crcRem (v : Bits) : Bits := crcRemBy Config.gen v

/-- `crcAppend(v)` (41_crc.md R173). -/
def crcAppend (v : Bits) : Bits := crcAppendBy Config.gen v

/-- `crcOk(c)` (41_crc.md R174). -/
def crcOk (c : Bits) : Bool := crcOkBy Config.gen c

end Sys2Proof.Machine
end

