-- ==== Sys2Proof/Machine/Crc.lean ====
section
/-! DEFINITION. The commands of the CRC unit (spec/41_crc.md R175 to R178). -/

namespace Sys2Proof.Machine

/-- CRC_DIV rd, rs (41_crc.md R175). -/
def execCrcDiv (rd : VReg) (rs : VSrc) (s : State) : Result :=
  succeed (s.writeV rd (polydiv (s.readSrc rs)))

/-- CRC_REM rs (41_crc.md R176): RES[j] is remainder bit j. -/
def execCrcRem (rs : VSrc) (s : State) : Result :=
  succeed { s with res := BitVec.ofNat 16 (bitsToNat (crcRem (s.readSrc rs))) }

/-- CRC_APPEND rd, rs (41_crc.md R177). -/
def execCrcAppend (rd : VReg) (rs : VSrc) (s : State) : Result :=
  if Config.bvCap < (s.readSrc rs).length + Config.crcLen then refuse .bvOverflow s
  else succeed (s.writeV rd (crcAppend (s.readSrc rs)))

/-- CRC_VERIFY rs (41_crc.md R178): a mismatch is an outcome, RES is written. -/
def execCrcVerify (rs : VSrc) (s : State) : Result :=
  if crcOk (s.readSrc rs) then succeed { s with res := 1 }
  else fail .crcMismatch { s with res := 0 }

end Sys2Proof.Machine
end

