-- ==== Sys2Proof/Machine/HamUnit.lean ====
section
/-! DEFINITION. The pure functions of the Hamming unit (spec/42_hamming.md R201 to R206). -/

namespace Sys2Proof.Machine

/-- A power of two: 1, 2, 4, ... (42_hamming.md R201). -/
def isPow2 (n : Nat) : Bool := n == 2 ^ n.log2

/-- The next codeword position: one on, and past a power of two (42_hamming.md R201). Two positions in a row are
powers of two only at 1 and 2, below the start of the walk, so the rule's inner loop runs at most once. -/
def nextPos (p : Nat) : Nat := if isPow2 (p + 1) then p + 2 else p + 1

/-- The position after `k` steps of the walk from position 2 (42_hamming.md R201). -/
def posAfter : Nat → Nat
  | 0 => 2
  | k + 1 => nextPos (posAfter k)

/-- `hamPos(d)`, the codeword position of data bit `d` (42_hamming.md R201). -/
def hamPos (d : Nat) : Nat := posAfter (d + 1)

/-- `hamIndex(s)`, the data bit at codeword position `s` (42_hamming.md R202). -/
def hamIndex (s : Nat) : Nat := s - 2 - s.log2

/-- XOR of the positions of the set bits of a vector whose first bit is data bit `d` (42_hamming.md R203). -/
def hamParityFrom : Nat → Bits → Byte
  | _, [] => 0
  | d, b :: v => (if b then BitVec.ofNat 8 (hamPos d) else 0) ^^^ hamParityFrom (d + 1) v

/-- `hamParity(v)` (42_hamming.md R203). -/
def hamParity (v : Bits) : Byte := hamParityFrom 0 v

/-- `hamCorrect(v, par)`: the vector, the syndrome and its class (42_hamming.md R205, R206). -/
def hamCorrect (v : Bits) (par : Byte) : Bits × Byte × HamClass :=
  let s := hamParity v ^^^ par
  if s = 0 then (v, s, .noError)
  else if isPow2 s.toNat then (v, s, .checkBitError)
  else if hamIndex s.toNat < v.length then (flipBit v (hamIndex s.toNat), s, .dataCorrected)
  else (v, s, .outOfRange)

end Sys2Proof.Machine
end

