-- ==== Sys2Proof/Machine/FrmUnit.lean ====
section
/-! DEFINITION. The pure functions of the framing unit (spec/43_framing.md R231 to R240): escaping, trailer, frame,
chunks, the completeness test, the escape-sequence parser and the frame decoder. -/

namespace Sys2Proof.Machine

/-- `isTag(x)` (43_framing.md R231). -/
def isTag (x : Byte) : Bool := x == Config.startTag || x == Config.stopTag || x == Config.escTag

/-- `esc(P)` (43_framing.md R232). -/
def esc (P : List Byte) : List Byte := P.flatMap fun x => if isTag x then [Config.escTag, x] else [x]

/-- `trailer(P)`, computed over the unescaped chunk (43_framing.md R233). -/
def trailer (sc : Scheme) (P : List Byte) : List Byte :=
  match sc with
  | .crc => bytes (crcRem (bits P))
  | .ham => [hamParity (bits P)]

/-- `frame(P)`: the trailer is written raw (43_framing.md R234). -/
def frame (sc : Scheme) (P : List Byte) : List Byte :=
  [Config.startTag] ++ esc P ++ trailer sc P ++ [Config.stopTag]

/-- How many chunks a message of `n` bytes has: `ceil(n / 8)` (43_framing.md R235). -/
def chunkCount (n : Nat) : Nat := (n + (Config.maxChunk - 1)) / Config.maxChunk

/-- `chunks(M)`: the slices `M[8c .. min(8c + 8, n))` in order (43_framing.md R235). -/
def chunks (M : List Byte) : List (List Byte) :=
  (List.range (chunkCount M.length)).map fun c => (M.drop (Config.maxChunk * c)).take Config.maxChunk

/-- `isComplete(B)`: the last byte is the stop tag and the one before it is not the escape tag (43_framing.md R236). -/
def isComplete (B : List Byte) : Bool :=
  2 ≤ B.length && B[B.length - 1]? == some Config.stopTag && B[B.length - 2]? != some Config.escTag

/-- One byte read by the escape-sequence parser (the table of 43_framing.md R237). A parser that has stopped reads
nothing more (R238 "Bytes after the first unescaped stop tag are not read"; DEDUCED, log entry 6). -/
def Parser.read (p : Parser) (x : Byte) : Parser :=
  match p.phase with
  | .start =>
    if x = Config.startTag then { p with phase := .data, index := p.index + 1 }
    else { p with phase := .missingStart, index := p.index + 1 }
  | .data =>
    if x = Config.stopTag then { p with phase := .done, index := p.index + 1 }
    else if x = Config.escTag then { p with phase := .esc, index := p.index + 1 }
    else { p with copy := p.copy ++ [x], index := p.index + 1 }
  | .esc => { phase := .data, copy := p.copy ++ [x], index := p.index + 1 }
  | .done => p
  | .missingStart => p

/-- The parser's verdict: the copy and the number of bytes consumed, or an error kind (43_framing.md R238). -/
inductive ScanResult where
  | ok (copy : List Byte) (consumed : Nat)
  | fail (k : ErrKind)
  deriving DecidableEq, Repr

/-- The verdict when the buffer ends here (43_framing.md R237). -/
def Parser.verdict (p : Parser) : ScanResult :=
  match p.phase with
  | .start => .fail .missingStartTag
  | .data => .fail .noStopTag
  | .esc => .fail .malformedEscape
  | .done => .ok p.copy p.index
  | .missingStart => .fail .missingStartTag

/-- `scan(B)`: the parser run over the buffer (43_framing.md R238). -/
def scan (B : List Byte) : ScanResult := (B.foldl Parser.read Parser.fresh).verdict

/-- What the codec says of a copy of at least TRAILER_LEN bytes: the payload, and under HAM the syndrome and class. -/
inductive CodecResult where
  | corrupt
  | payload (P : List Byte) (ham : Option (Byte × HamClass))
  deriving DecidableEq, Repr

/-- The codec step of `decode` (43_framing.md R240). -/
def checkCopy (sc : Scheme) (copy : List Byte) : CodecResult :=
  match sc with
  | .crc => if crcOk (bits copy) then .payload (copy.take (copy.length - 2)) none else .corrupt
  | .ham =>
    let r := hamCorrect (bits (copy.take (copy.length - 1))) (copy.getLastD 0)
    .payload (bytes r.1) (some r.2)

/-- What `decode` returns. -/
inductive DecodeResult where
  | ok (P : List Byte) (consumed : Nat) (ham : Option (Byte × HamClass))
  | fail (k : ErrKind)
  deriving DecidableEq, Repr

/-- `decode(B)` of the framing unit (43_framing.md R240). Under HAM the rule requires a copy of at most 31 bytes;
FRM_DECODE refuses longer ones before this step (log entry 13). -/
def decodeFrame (sc : Scheme) (B : List Byte) : DecodeResult :=
  match scan B with
  | .fail k => .fail k
  | .ok copy consumed =>
    if copy.length < Config.trailerLen sc then .fail .tooShort
    else
      match checkCopy sc copy with
      | .corrupt => .fail .crcMismatch
      | .payload P ham => .ok P consumed ham

end Sys2Proof.Machine
end

