-- ==== Sys2Proof/Machine/Frm.lean ====
section
/-! DEFINITION. The commands of the framing unit (spec/43_framing.md R241 to R244). They read neither V0 to V3 nor
VG and write none of them (spec/10_state.md R35). -/

namespace Sys2Proof.Machine

/-- FRM_ENCODE src, n, dst (43_framing.md R241): chunk length, source range, then the range of the frame. -/
def execFrmEncode (src n dst : Addr) (s : State) : Result :=
  let F := frame s.scheme (s.mem.readBytes src.toNat n.toNat)
  if n.toNat = 0 ∨ Config.maxChunk < n.toNat then refuse .chunkLength s
  else if !inMem src.toNat n.toNat then refuse .addrRange s
  else if !inMem dst.toNat F.length then refuse .addrRange s
  else succeed { s with mem := s.mem.writeBytes dst.toNat F, rlen := count16 F.length }

/-- FRM_COMPLETE src, n (43_framing.md R242). -/
def execFrmComplete (src n : Addr) (s : State) : Result :=
  if !inMem src.toNat n.toNat then refuse .addrRange s
  else succeed { s with res := if isComplete (s.mem.readBytes src.toNat n.toNat) then 1 else 0 }

/-- Step 8 of FRM_DECODE: the payload, RLEN, RES, STATUS, and under HAM SYND and DIAG (43_framing.md R243). -/
def deliverPayload (dst : Addr) (P : List Byte) (consumed : Nat) (ham : Option (Byte × HamClass)) (s : State) :
    Result :=
  let t := { s with mem := s.mem.writeBytes dst.toNat P, rlen := count16 P.length, res := count16 consumed }
  match ham with
  | none => succeed t
  | some (syn, cls) => succeedHam syn cls t

/-- Steps 4 to 8 of FRM_DECODE, for a copy and the number of consumed bytes (43_framing.md R243). -/
def decodeCopy (dst : Addr) (copy : List Byte) (consumed : Nat) (s : State) : Result :=
  if copy.length < Config.trailerLen s.scheme then
    fail .tooShort { s with res := count16 consumed, rlen := 0 }
  else if s.scheme = .ham ∧ Config.hamMaxData < 8 * (copy.length - 1) then refuse .hamRange s
  else
    match checkCopy s.scheme copy with
    | .corrupt => fail .crcMismatch { s with res := count16 consumed, rlen := 0 }
    | .payload P ham =>
      if !inMem dst.toNat P.length then refuse .addrRange s
      else deliverPayload dst P consumed ham s

/-- FRM_DECODE src, n, dst (43_framing.md R243, steps 2 to 8 in order). -/
def execFrmDecode (src n dst : Addr) (s : State) : Result :=
  if !inMem src.toNat n.toNat then refuse .addrRange s
  else
    match scan (s.mem.readBytes src.toNat n.toNat) with
    | .fail k => fail k { s with res := 0, rlen := 0 }
    | .ok copy consumed => decodeCopy dst copy consumed s

/-- FRM_SEND src, n (43_framing.md R244): one entry of tx_log per chunk, in order. -/
def execFrmSend (src n : Addr) (s : State) : Result :=
  if !inMem src.toNat n.toNat then refuse .addrRange s
  else
    succeed { s with
      txLog := s.txLog ++ (chunks (s.mem.readBytes src.toNat n.toNat)).map (frame s.scheme)
      rlen := count16 (chunkCount n.toNat) }

end Sys2Proof.Machine
end

