-- ==== Sys2Proof/Machine/Ham.lean ====
section
/-! DEFINITION. The commands of the Hamming unit (spec/42_hamming.md R207 to R210). -/

namespace Sys2Proof.Machine

/-- HAM_PARITY rs (42_hamming.md R207). -/
def execHamParity (rs : VSrc) (s : State) : Result :=
  if Config.hamMaxData < (s.readSrc rs).length then refuse .hamRange s
  else succeed { s with res := (hamParity (s.readSrc rs)).setWidth 16 }

/-- The writes of a finished correction: the corrected vector to rd, the syndrome to RES and SYND, the class and the
diagnostic (the shared part of 42_hamming.md R208 and R210). -/
def finishCorrection (rd : VReg) (r : Bits × Byte × HamClass) (s : State) : Result :=
  succeedHam r.2.1 r.2.2 { s.writeV rd r.1 with res := r.2.1.setWidth 16 }

/-- HAM_CORRECT rd, par (42_hamming.md R208). -/
def execHamCorrect (rd : VReg) (par : Byte) (s : State) : Result :=
  if Config.hamMaxData < (s.readV rd).length then refuse .hamRange s
  else finishCorrection rd (hamCorrect (s.readV rd) par) s

/-- HAM_APPEND rd, rs (42_hamming.md R209): the data, then check bit k at index len + k. -/
def execHamAppend (rd : VReg) (rs : VSrc) (s : State) : Result :=
  let v := s.readSrc rs
  if Config.hamMaxData < v.length then refuse .hamRange s
  else succeed (s.writeV rd (v ++ byteBits (hamParity v)))

/-- HAM_VERIFY rd, rs (42_hamming.md R210): HamRange, then TooShort, then the correction of the data bits. -/
def execHamVerify (rd : VReg) (rs : VSrc) (s : State) : Result :=
  let c := s.readSrc rs
  let n := c.length - Config.hamBits
  if Config.hamMaxData + Config.hamBits < c.length then refuse .hamRange s
  else if c.length < Config.hamBits then fail .tooShort s
  else finishCorrection rd (hamCorrect (c.take n) (BitVec.ofNat 8 (bitsToNat (c.drop n)))) s

end Sys2Proof.Machine
end

