-- ==== Sys2Proof/Machine/Sys.lean ====
section
/-! DEFINITION. The system commands (spec/44_system.md). -/

namespace Sys2Proof.Machine

/-- NOP: STATUS <- 0 (44_system.md R281). -/
def execNop (s : State) : Result := succeed s

/-- DIAG_CLR: DIAG <- 0; STATUS <- 0 (44_system.md R282). -/
def execDiagClr (s : State) : Result := succeed { s with diag := 0 }

end Sys2Proof.Machine
end

