-- ==== Sys2Proof/Machine/Wire.lean ====
section
/-! DEFINITION. The byte classes of the wire as instructions (spec/30_encoding.md R111, opcode_table.json format
WIRE): one byte read by the escape-sequence parser (spec/43_framing.md R237), the parser state kept between bytes as
spec/10_state.md R37 allows (log entries 5 and 6). A byte is no command: STATUS and DIAG stay (log entry 21). -/

namespace Sys2Proof.Machine

/-- The parser reads one byte; nothing else changes. -/
def readWireByte (x : Byte) (s : State) : Result := .next { s with parser := s.parser.read x }

/-- START, 7B: opens the frame as the first byte of a buffer, elsewhere data (43_framing.md R237). -/
def execWireStart (s : State) : Result := readWireByte Config.startTag s

/-- STOP, 7D: unescaped in the interior it ends the frame (43_framing.md R237). -/
def execWireStop (s : State) : Result := readWireByte Config.stopTag s

/-- ESC, 5C: unescaped in the interior it is dropped and the next byte is data (43_framing.md R237). -/
def execWireEsc (s : State) : Result := readWireByte Config.escTag s

/-- DATA: any other value, copied as data (43_framing.md R237). -/
def execWireData (x : Byte) (s : State) : Result := readWireByte x s

end Sys2Proof.Machine
end

