-- ==== Sys2Proof/Machine/Dispatch.lean ====
section
/-! DEFINITION. The meaning of every instruction, one arm per constructor. -/

namespace Sys2Proof.Machine

/-- The effect of an instruction, all legality of its word already tested (30_encoding.md R108). -/
def exec (i : Instr) (s : State) : Host.Outcome State Fault Refusal :=
  match i with
  | .nop => Sys2Proof.Machine.execNop s
  | .diagClr => Sys2Proof.Machine.execDiagClr s
  | .bvClr rd => Sys2Proof.Machine.execBvClr rd s
  | .bvGet rs idx => Sys2Proof.Machine.execBvGet rs idx s
  | .bvSet rd idx bit => Sys2Proof.Machine.execBvSet rd idx bit s
  | .bvLoad rd addr n => Sys2Proof.Machine.execBvLoad rd addr n s
  | .bvStore rs addr => Sys2Proof.Machine.execBvStore rs addr s
  | .bvXor rd rs off => Sys2Proof.Machine.execBvXor rd rs off s
  | .crcDiv rd rs => Sys2Proof.Machine.execCrcDiv rd rs s
  | .crcRem rs => Sys2Proof.Machine.execCrcRem rs s
  | .crcAppend rd rs => Sys2Proof.Machine.execCrcAppend rd rs s
  | .crcVerify rs => Sys2Proof.Machine.execCrcVerify rs s
  | .hamParity rs => Sys2Proof.Machine.execHamParity rs s
  | .hamCorrect rd par => Sys2Proof.Machine.execHamCorrect rd par s
  | .hamAppend rd rs => Sys2Proof.Machine.execHamAppend rd rs s
  | .hamVerify rd rs => Sys2Proof.Machine.execHamVerify rd rs s
  | .frmEncode src n dst => Sys2Proof.Machine.execFrmEncode src n dst s
  | .frmComplete src n => Sys2Proof.Machine.execFrmComplete src n s
  | .frmDecode src n dst => Sys2Proof.Machine.execFrmDecode src n dst s
  | .frmSend src n => Sys2Proof.Machine.execFrmSend src n s
  | .wireStart => Sys2Proof.Machine.execWireStart s
  | .wireStop => Sys2Proof.Machine.execWireStop s
  | .wireEsc => Sys2Proof.Machine.execWireEsc s
  | .wireData x => Sys2Proof.Machine.execWireData x s

end Sys2Proof.Machine
end

