-- ==== Sys2Proof/Machine/Step.lean ====
section
/-! DEFINITION. One step: the oldest pending move of the host is taken from the list and carried out
(spec/70_reset_and_hazards.md R345, R346); with none pending CORE waits (R332). A presented word is decoded and run;
a word that decodes to nothing is refused with IllegalCommand (spec/30_encoding.md R108). -/

namespace Sys2Proof.Machine

/-- Carry out one move of the host. -/
def runMove (m : HostMove) (s : State) : Host.Outcome State Fault Refusal :=
  match m with
  | .read p => hostRead p s
  | .writeMem a x => hostWriteMem a x s
  | .takeTx n => hostTakeTx n s
  | .present p =>
    match decode p with
    | some i => exec i s
    | none => illegalWord s
  | .reset => hostReset s
  | .newBuffer => hostNewBuffer s

/-- One step of the machine. -/
def step (s : State) : Host.Outcome State Fault Refusal :=
  match s.host with
  | [] => .next s
  | m :: rest => runMove m { s with host := rest }

/-- The state with one more word presented before all pending moves: the instruction of the opcode table whose bits
are `w` (log entry 4: commands come from the host's port, never from MEM, 20_memory.md R82). -/
def State.withFetchWord (s : State) (nbits w : Nat) : State :=
  { s with host := .present (portWordOf nbits w) :: s.host }

end Sys2Proof.Machine
end

