-- ==== Sys2Proof/Machine/HostSide.lean ====
section
/-! DEFINITION. The host's side of the reception protocol (spec/70_reset_and_hazards.md R347): a duty of the host,
used by no step of CORE (log entry 20). -/

namespace Sys2Proof.Machine

/-- What the host does after FRM_DECODE: a payload to deliver upward, if any, and the bytes it keeps in its buffer. -/
structure HostReaction where
  deliver : Option (List Byte)
  keep : List Byte
  deriving DecidableEq, Repr

/-- The table of 70_reset_and_hazards.md R347, for the state after `FRM_DECODE buf, n, dst` on the buffer `B`. A
refused FRM_DECODE is no row of the table: nothing was decoded, the bytes are kept. -/
def hostReaction (s : State) (dst : Addr) (B : List Byte) : HostReaction :=
  match s.err with
  | 0 => ⟨some (s.mem.readBytes dst.toNat s.rlen.toNat), B.drop s.res.toNat⟩
  | 1 => ⟨none, B.dropWhile (· != Config.startTag)⟩
  | 2 => ⟨none, B.drop s.res.toNat⟩
  | 5 => ⟨none, B.drop s.res.toNat⟩
  | _ => ⟨none, B⟩

end Sys2Proof.Machine
end

