-- ==== Sys2Proof/Machine/Pseudo.lean ====
section
/-! DEFINITION. The pseudo-commands of spec/30_encoding.md R121 and their expansions. They are names for lists of
commands, not instructions of their own. -/

namespace Sys2Proof.Machine

/-- A pseudo-command (30_encoding.md R121). -/
inductive Pseudo where
  | bvMov (rd : VReg) (rs : VSrc)
  | bvXorg (rd : VReg) (off : Word16)
  | crcCheck (rs : VSrc)
  | send (src n : Addr)
  deriving DecidableEq, Repr

/-- The expansion of a pseudo-command (30_encoding.md R121). -/
def expandPseudo : Pseudo → List Instr
  | .bvMov rd rs => [.bvClr rd, .bvXor rd rs 0]
  | .bvXorg rd off => [.bvXor rd .vg off]
  | .crcCheck rs => [.crcVerify rs]
  | .send src n => [.frmSend src n]

end Sys2Proof.Machine
end

