-- ==== Sys2Proof/Safety.lean ====
section
/-! DEFINITION. The terms in which claims about CORE are made: the invariant of every state a run reaches, the sets of
components each instruction writes (spec/10_state.md R42 to R48), trailer-safe chunks (spec/70_reset_and_hazards.md
R351), and the rules' own second forms of what the model computes (illegal words by spec/30_encoding.md R108, the scan
loop of spec/43_framing.md R238, closed forms). -/

namespace Sys2Proof.Machine

/-- A value STATUS can hold after a command: success with any class, or an error kind or refusal with class 0
(10_state.md R40, R41; 60_exceptions.md R291). -/
def LegalStatus (st : Word16) : Prop :=
  (∃ cls : HamClass, st = statusWord 0 cls) ∨ (∃ k : ErrKind, st = statusWord k.code .noError) ∨
    (∃ c : RefuseCode, st = statusWord c.code .noError)

/-- The invariant of CORE's state at a command boundary. -/
structure Inv (s : State) : Prop where
  /-- every register is at most BV_CAP bits long (10_state.md R34) -/
  bankWithinCapacity : ∀ r, (s.readV r).length ≤ Config.bvCap
  /-- CFG holds the strap and nothing else (10_state.md R39) -/
  cfgIsStrap : s.cfg = cfgOf s.scheme
  /-- STATUS holds a produced code (60_exceptions.md R291) -/
  statusLegal : LegalStatus s.status
  /-- DIAG bit 7 reads 0 (10_state.md R45) -/
  diagBit7Clear : s.diag.getLsbD 7 = false
  /-- MEM is in its canonical form -/
  memCanonical : Memory.wf s.mem
  /-- MEM has addresses 0 to MEM_SIZE - 1 only (10_state.md R48) -/
  memInRange : Memory.inRange s.mem
  /-- every entry of tx_log is the frame of a chunk of 1 to 8 bytes (10_state.md R47, 43_framing.md R244) -/
  sentFrames : ∀ F ∈ s.txLog, ∃ P : List Byte, 1 ≤ P.length ∧ P.length ≤ Config.maxChunk ∧ F = frame s.scheme P
  /-- the kept parser state is the one some buffer leads to (43_framing.md R237) -/
  parserReached : ∃ B : List Byte, s.parser = B.foldl Parser.read Parser.fresh

/-- Is the instruction one of the 20 commands, not a byte class of the wire? (30_encoding.md R104, R111) -/
def isCommand : Instr → Bool
  | .wireStart | .wireStop | .wireEsc | .wireData _ => false
  | .nop | .diagClr | .bvClr _ | .bvGet _ _ | .bvSet _ _ _ | .bvLoad _ _ _ | .bvStore _ _ | .bvXor _ _ _
  | .crcDiv _ _ | .crcRem _ | .crcAppend _ _ | .crcVerify _ | .hamParity _ | .hamCorrect _ _ | .hamAppend _ _
  | .hamVerify _ _ | .frmEncode _ _ _ | .frmComplete _ _ | .frmDecode _ _ _ | .frmSend _ _ => true

/-- Is the instruction a command of the FRM unit? (30_encoding.md R104) -/
def isFraming : Instr → Bool
  | .frmEncode _ _ _ | .frmComplete _ _ | .frmDecode _ _ _ | .frmSend _ _ => true
  | .nop | .diagClr | .bvClr _ | .bvGet _ _ | .bvSet _ _ _ | .bvLoad _ _ _ | .bvStore _ _ | .bvXor _ _ _
  | .crcDiv _ _ | .crcRem _ | .crcAppend _ _ | .crcVerify _ | .hamParity _ | .hamCorrect _ _ | .hamAppend _ _
  | .hamVerify _ _ | .wireStart | .wireStop | .wireEsc | .wireData _ => false

/-- Does the command call the codec SCHEME selects? FRM_ENCODE, FRM_DECODE and FRM_SEND do (10_state.md R39). -/
def usesScheme : Instr → Bool
  | .frmEncode _ _ _ | .frmDecode _ _ _ | .frmSend _ _ => true
  | .frmComplete _ _ | .nop | .diagClr | .bvClr _ | .bvGet _ _ | .bvSet _ _ _ | .bvLoad _ _ _ | .bvStore _ _
  | .bvXor _ _ _ | .crcDiv _ _ | .crcRem _ | .crcAppend _ _ | .crcVerify _ | .hamParity _ | .hamCorrect _ _
  | .hamAppend _ _ | .hamVerify _ _ | .wireStart | .wireStop | .wireEsc | .wireData _ => false

/-- Does the instruction write MEM? BV_STORE, FRM_ENCODE and FRM_DECODE do (10_state.md R48). -/
def writesMem : Instr → Bool
  | .bvStore _ _ | .frmEncode _ _ _ | .frmDecode _ _ _ => true
  | .frmComplete _ _ | .frmSend _ _ | .nop | .diagClr | .bvClr _ | .bvGet _ _ | .bvSet _ _ _ | .bvLoad _ _ _
  | .bvXor _ _ _ | .crcDiv _ _ | .crcRem _ | .crcAppend _ _ | .crcVerify _ | .hamParity _ | .hamCorrect _ _
  | .hamAppend _ _ | .hamVerify _ _ | .wireStart | .wireStop | .wireEsc | .wireData _ => false

/-- The destination register of an instruction, if it has one (30_encoding.md R104). -/
def destOf : Instr → Option VReg
  | .bvClr rd | .bvSet rd _ _ | .bvLoad rd _ _ | .bvXor rd _ _ | .crcDiv rd _ | .crcAppend rd _ | .hamCorrect rd _
  | .hamAppend rd _ | .hamVerify rd _ => some rd
  | .nop | .diagClr | .bvGet _ _ | .bvStore _ _ | .crcRem _ | .crcVerify _ | .hamParity _ | .frmEncode _ _ _
  | .frmComplete _ _ | .frmDecode _ _ _ | .frmSend _ _ | .wireStart | .wireStop | .wireEsc | .wireData _ => none

/-- The commands that write RES (10_state.md R42). -/
def writesRes : Instr → Bool
  | .bvGet _ _ | .crcRem _ | .crcVerify _ | .hamParity _ | .hamCorrect _ _ | .hamVerify _ _ | .frmComplete _ _
  | .frmDecode _ _ _ => true
  | .nop | .diagClr | .bvClr _ | .bvSet _ _ _ | .bvLoad _ _ _ | .bvStore _ _ | .bvXor _ _ _ | .crcDiv _ _
  | .crcAppend _ _ | .hamAppend _ _ | .frmEncode _ _ _ | .frmSend _ _ | .wireStart | .wireStop | .wireEsc
  | .wireData _ => false

/-- The commands that write RLEN (10_state.md R43). -/
def writesRlen : Instr → Bool
  | .bvStore _ _ | .frmEncode _ _ _ | .frmDecode _ _ _ | .frmSend _ _ => true
  | .frmComplete _ _ | .nop | .diagClr | .bvClr _ | .bvGet _ _ | .bvSet _ _ _ | .bvLoad _ _ _ | .bvXor _ _ _
  | .crcDiv _ _ | .crcRem _ | .crcAppend _ _ | .crcVerify _ | .hamParity _ | .hamCorrect _ _ | .hamAppend _ _
  | .hamVerify _ _ | .wireStart | .wireStop | .wireEsc | .wireData _ => false

/-- The commands that write SYND (10_state.md R44). -/
def writesSynd : Instr → Bool
  | .hamCorrect _ _ | .hamVerify _ _ | .frmDecode _ _ _ => true
  | .nop | .diagClr | .bvClr _ | .bvGet _ _ | .bvSet _ _ _ | .bvLoad _ _ _ | .bvStore _ _ | .bvXor _ _ _
  | .crcDiv _ _ | .crcRem _ | .crcAppend _ _ | .crcVerify _ | .hamParity _ | .hamAppend _ _ | .frmEncode _ _ _
  | .frmComplete _ _ | .frmSend _ _ | .wireStart | .wireStop | .wireEsc | .wireData _ => false

/-- The commands that write tx_log (10_state.md R47). -/
def writesTxLog : Instr → Bool
  | .frmSend _ _ => true
  | .frmEncode _ _ _ | .frmComplete _ _ | .frmDecode _ _ _ | .nop | .diagClr | .bvClr _ | .bvGet _ _ | .bvSet _ _ _
  | .bvLoad _ _ _ | .bvStore _ _ | .bvXor _ _ _ | .crcDiv _ _ | .crcRem _ | .crcAppend _ _ | .crcVerify _
  | .hamParity _ | .hamCorrect _ _ | .hamAppend _ _ | .hamVerify _ _ | .wireStart | .wireStop | .wireEsc
  | .wireData _ => false

/-- The DIAG bits a legal instruction can change, by number: the bits of the codes 60_exceptions.md R291 says it
raises, HAM_SYNDROME for a correction (10_state.md R45), all of them for DIAG_CLR (44_system.md R282). -/
def diagBitsOf : Instr → List Nat
  | .diagClr => [0, 1, 2, 3, 4, 5, 6, 7]
  | .bvSet _ _ _ | .bvLoad _ _ _ | .bvStore _ _ | .bvXor _ _ _ | .crcAppend _ _ | .hamParity _ | .hamAppend _ _
  | .frmEncode _ _ _ | .frmComplete _ _ | .frmSend _ _ => [6]
  | .crcVerify _ => [1]
  | .hamCorrect _ _ => [2, 6]
  | .hamVerify _ _ => [2, 5, 6]
  | .frmDecode _ _ _ => [0, 1, 2, 3, 4, 5, 6]
  | .nop | .bvClr _ | .bvGet _ _ | .crcDiv _ _ | .crcRem _ | .wireStart | .wireStop | .wireEsc | .wireData _ => []

/-- From `s` to `t` an instruction changed no component but those its rule names (10_state.md R51): the frame, less
MEM, which each frame statement gives byte by byte. STATUS is written by every command (R52) and by no wire byte;
the parser is written by wire bytes alone. -/
structure FrameKept (i : Instr) (s t : State) : Prop where
  bank : ∀ r, destOf i ≠ some r → t.readV r = s.readV r
  cfg : t.cfg = s.cfg
  status : isCommand i = false → t.status = s.status
  res : writesRes i = false → t.res = s.res
  rlen : writesRlen i = false → t.rlen = s.rlen
  synd : writesSynd i = false → t.synd = s.synd
  diag : ∀ k, k ∉ diagBitsOf i → t.diag.getLsbD k = s.diag.getLsbD k
  txLog : writesTxLog i = false → t.txLog = s.txLog
  parser : isCommand i = true → t.parser = s.parser
  host : t.host = s.host

/-- No byte of the trailer is an escape or stop tag (70_reset_and_hazards.md R351). -/
def TrailerSafe (sc : Scheme) (P : List Byte) : Prop :=
  ∀ x ∈ trailer sc P, x ≠ Config.escTag ∧ x ≠ Config.stopTag

/-! ### Illegal command words, read off the word as a number (30_encoding.md R100, R103, R104, R108) -/

/-- Which fields a command uses (the column "used fields" of 30_encoding.md R104). -/
structure UsedFields where
  rd : Bool
  rs : Bool
  a : Bool
  b : Bool
  c : Bool

/-- The used fields by opcode; no entry for a reserved opcode (30_encoding.md R104, R107). -/
def usedFields (op : Nat) : Option UsedFields :=
  if op = 0x00 ∨ op = 0x01 then some ⟨false, false, false, false, false⟩
  else if op = 0x10 then some ⟨true, false, false, false, false⟩
  else if op = 0x11 ∨ op = 0x14 then some ⟨false, true, true, false, false⟩
  else if op = 0x12 ∨ op = 0x13 then some ⟨true, false, true, true, false⟩
  else if op = 0x15 then some ⟨true, true, true, false, false⟩
  else if op = 0x20 ∨ op = 0x22 ∨ op = 0x32 ∨ op = 0x33 then some ⟨true, true, false, false, false⟩
  else if op = 0x21 ∨ op = 0x23 ∨ op = 0x30 then some ⟨false, true, false, false, false⟩
  else if op = 0x31 then some ⟨true, false, true, false, false⟩
  else if op = 0x40 ∨ op = 0x42 then some ⟨false, false, true, true, true⟩
  else if op = 0x41 ∨ op = 0x43 then some ⟨false, false, true, true, false⟩
  else none

/-- Bits `lo + width - 1` down to `lo` of a word, as a number. -/
def fieldNat (w : CmdWord) (lo width : Nat) : Nat := w.toNat / 2 ^ lo % 2 ^ width

/-- The command word with the given fields, z being 0: as a number it is
`op*2^56 + rd*2^53 + rs*2^50 + a*2^32 + b*2^16 + c` (30_encoding.md R100). -/
def wordOf (op rd rs a b c : Nat) : PortWord :=
  .cmd (BitVec.ofNat 64 (op * 2 ^ 56 + rd * 2 ^ 53 + rs * 2 ^ 50 + a * 2 ^ 32 + b * 2 ^ 16 + c))

/-- 30_encoding.md R108 (d), (e): a used register field names no register it may name. -/
def registerFieldsIllegal (w : CmdWord) (u : UsedFields) : Prop :=
  (u.rd = true ∧ fieldNat w 53 3 ∈ [4, 5, 6]) ∨ (u.rs = true ∧ fieldNat w 50 3 ∈ [4, 5, 6]) ∨
    (u.rd = true ∧ fieldNat w 53 3 = 7)

/-- The word is illegal by 30_encoding.md R108: (a) reserved opcode, (b) z not 0, (c) an unused field not 0, (d), (e)
the register fields, (f) BV_SET with b > 1, (g) HAM_CORRECT with a > 255. -/
def IllegalWord (w : CmdWord) : Prop :=
  match usedFields (fieldNat w 56 8) with
  | none => True
  | some u =>
    fieldNat w 48 2 ≠ 0 ∨
    (u.rd = false ∧ fieldNat w 53 3 ≠ 0) ∨ (u.rs = false ∧ fieldNat w 50 3 ≠ 0) ∨
    (u.a = false ∧ fieldNat w 32 16 ≠ 0) ∨ (u.b = false ∧ fieldNat w 16 16 ≠ 0) ∨
    (u.c = false ∧ fieldNat w 0 16 ≠ 0) ∨
    registerFieldsIllegal w u ∨
    (fieldNat w 56 8 = 0x12 ∧ 1 < fieldNat w 16 16) ∨
    (fieldNat w 56 8 = 0x31 ∧ 255 < fieldNat w 32 16)

/-! ### The rules' second forms -/

/-- The loop of 43_framing.md R238 from byte `i` of the buffer on: `esc` says the state is S_ESC. -/
def scanLoopFrom : List Byte → Nat → Bool → List Byte → ScanResult
  | [], _, true, _ => .fail .malformedEscape
  | [], _, false, _ => .fail .noStopTag
  | x :: B, i, true, copy => scanLoopFrom B (i + 1) false (copy ++ [x])
  | x :: B, i, false, copy =>
    if x = Config.stopTag then .ok copy (i + 1)
    else if x = Config.escTag then scanLoopFrom B (i + 1) true copy
    else scanLoopFrom B (i + 1) false (copy ++ [x])

/-- `scan(B)` as the loop of 43_framing.md R238. -/
def scanLoop : List Byte → ScanResult
  | [] => .fail .missingStartTag
  | x :: B => if x = Config.startTag then scanLoopFrom B 1 false [] else .fail .missingStartTag

/-- `ntag(P)`, the number of bytes of `P` equal to 7B, 7D or 5C (30_encoding.md R110, 43_framing.md R232). -/
def ntag (P : List Byte) : Nat := P.countP fun x => x == 0x7B || x == 0x7D || x == 0x5C

/-- XOR of `f i` over the indices of a list. -/
def xorOver (l : List Nat) (f : Nat → Bool) : Bool := l.foldr (fun i acc => f i ^^ acc) false

/-- XOR of `v[i]` over all `i < len(v)` with `i = r (mod 16)` (41_crc.md R180, R182). -/
def residueParity (v : Bits) (r : Nat) : Bool :=
  xorOver ((List.range v.length).filter fun i => i % 16 = r % 16) (getBit v)

/-- XOR of the bytes `P[i]` with `k - i` of the given parity, `k` the length (41_crc.md R181). -/
def alternateFold (P : List Byte) (parity : Nat) : Byte :=
  ((List.range P.length).filter fun i => (P.length - i) % 2 = parity).foldr (fun i acc => P.getD i 0 ^^^ acc) 0

/-- Bitwise exclusive or of two vectors of equal length (00_scope.md R13). -/
def xorVec (u w : Bits) : Bits := List.zipWith (· ^^ ·) u w

/-- Run the commands of a list one after the other (10_state.md R36), stopping at the first that is no next state. -/
def execList : List Instr → State → Result
  | [], s => .next s
  | i :: is, s =>
    match exec i s with
    | .next t => execList is t
    | .fault r => .fault r
    | .refused r => .refused r

/-- The host's moves that feed a new buffer to the parser byte by byte (log entry 7). -/
def feedMoves (B : List Byte) : List HostMove := .newBuffer :: B.map fun x => .present (.byte x)

end Sys2Proof.Machine
end

