-- ==== Sys2Proof/Certificates/Slice0/Obligations.lean ====
section
/-! DEFINITION. The statements for the provers, one `def Obligations.<Name> : Prop` each; OBLIGATIONS.json lists them
with the rules of spec/ they formalise. -/

open Sys2Proof Sys2Proof.Machine

/-! ### Encoding and decoding -/

/-- The words of 30_encoding.md R106 decode to the commands beside them, and the byte classes of R111 to theirs. -/
def Obligations.WorkedEncodingsDecode : Prop :=
  decode (.cmd 0x0000000000000000) = some .nop ∧
  decode (.cmd 0x0100000000000000) = some .diagClr ∧
  decode (.cmd 0x1040000000000000) = some (.bvClr .v2) ∧
  decode (.cmd 0x1104000500000000) = some (.bvGet (.reg .v1) 5) ∧
  decode (.cmd 0x1200001400010000) = some (.bvSet .v0 20 true) ∧
  decode (.cmd 0x1300010000020000) = some (.bvLoad .v0 0x0100 2) ∧
  decode (.cmd 0x1404020000000000) = some (.bvStore (.reg .v1) 0x0200) ∧
  decode (.cmd 0x151C000300000000) = some (.bvXor .v0 .vg 3) ∧
  decode (.cmd 0x2020000000000000) = some (.crcDiv .v1 (.reg .v0)) ∧
  decode (.cmd 0x2100000000000000) = some (.crcRem (.reg .v0)) ∧
  decode (.cmd 0x2220000000000000) = some (.crcAppend .v1 (.reg .v0)) ∧
  decode (.cmd 0x2304000000000000) = some (.crcVerify (.reg .v1)) ∧
  decode (.cmd 0x3000000000000000) = some (.hamParity (.reg .v0)) ∧
  decode (.cmd 0x3100001000000000) = some (.hamCorrect .v0 0x10) ∧
  decode (.cmd 0x3220000000000000) = some (.hamAppend .v1 (.reg .v0)) ∧
  decode (.cmd 0x3344000000000000) = some (.hamVerify .v2 (.reg .v1)) ∧
  decode (.cmd 0x4000010000020200) = some (.frmEncode 0x0100 2 0x0200) ∧
  decode (.cmd 0x4100020000060000) = some (.frmComplete 0x0200 6) ∧
  decode (.cmd 0x4200020000060300) = some (.frmDecode 0x0200 6 0x0300) ∧
  decode (.cmd 0x43000100000B0000) = some (.frmSend 0x0100 11) ∧
  decode (.byte 0x7B) = some .wireStart ∧ decode (.byte 0x7D) = some .wireStop ∧
  decode (.byte 0x5C) = some .wireEsc ∧ decode (.byte 0x41) = some (.wireData 0x41)

/-- Decode and encode agree: no bit of an encoding is dropped, for every instruction and every operand value. -/
def Obligations.DecodeEncodeRoundTrip : Prop :=
  ∀ i : Instr, i.wellFormed = true → decode (encode i) = some i

/-- Each presented word has one meaning: what it decodes to is well-formed and encodes back to it. -/
def Obligations.EncodeDecodeRoundTrip : Prop :=
  ∀ (p : PortWord) (i : Instr), decode p = some i → i.wellFormed = true ∧ encode i = p

/-- 30_encoding.md R108: a word decodes to nothing exactly when one of (a) to (g) holds of it, whatever the state; such
a word is refused with IllegalCommand; every other word is exactly one command. -/
def Obligations.IllegalWordsAreExactlyRule108 : Prop :=
  ∀ w : CmdWord,
    (IllegalWord w → ∀ (s : State) (rest : List HostMove), s.host = .present (.cmd w) :: rest →
      step s = .next { s with host := rest, status := 8, diag := s.diag ||| 0x40 }) ∧
    (IllegalWord w → decodeCmd w = none) ∧
    (¬ IllegalWord w → ∃ i, decodeCmd w = some i ∧ isCommand i = true ∧ encode i = .cmd w)

/-- 30_encoding.md R125: at most one CMD row of the opcode table matches a word; a decoded word matches the row of its
mnemonic; and a word is illegal exactly when it matches no row or its used register fields break R108 (d), (e). -/
def Obligations.OpcodeTableSelectsTheCommand : Prop :=
  ∀ w : CmdWord,
    (∀ r ∈ cmdRows, ∀ r' ∈ cmdRows, r.matches w = true → r'.matches w = true → r = r') ∧
    (∀ i, decodeCmd w = some i → ∃ r ∈ cmdRows, r.matches w = true ∧ r.mnemonic = i.mnemonic) ∧
    (decodeCmd w = none ↔ (∀ r ∈ cmdRows, r.matches w = false) ∨
      ∃ u, usedFields (fieldNat w 56 8) = some u ∧ registerFieldsIllegal w u)

/-! ### The step, the host, reset -/

/-- When the oldest move of the host presents a word that decodes to `i`, the step takes that move off the list and
runs `i`. The list of pending moves (log entry 3) and the presented wire byte, which is no move of
70_reset_and_hazards.md R346 (log entry 5), are the model's choice. -/
def Obligations.StepRunsTheDecodedInstruction : Prop :=
  ∀ (s : State) (p : PortWord) (i : Instr) (rest : List HostMove),
    s.host = .present p :: rest → decode p = some i → step s = exec i { s with host := rest }

/-- 70_reset_and_hazards.md R332, R346, 44_system.md R283: what a step does for each other move of the host. A read
changes nothing; a write sets one byte of MEM and no other; taking entries drops them from the front of tx_log; reset
leaves MEM and the moves still pending; with no move pending CORE waits. The list of pending moves and the move that
starts a new parser buffer are the model's choice (log entries 3 and 7). -/
def Obligations.StepCarriesOutHostMoves : Prop :=
  ∀ (s : State) (rest : List HostMove),
    (s.host = [] → step s = .next s) ∧
    (∀ q, s.host = .read q :: rest → step s = .next { s with host := rest }) ∧
    (∀ (a : Word16) (x : Byte), s.host = .writeMem a x :: rest →
      ∃ m, step s = .next { s with host := rest, mem := m } ∧ m.read a.toNat = x ∧
        ∀ b, b ≠ a.toNat → m.read b = s.mem.read b) ∧
    (∀ n, s.host = .takeTx n :: rest → step s = .next { s with host := rest, txLog := s.txLog.drop n }) ∧
    (s.host = .reset :: rest → ∃ t, step s = .next t ∧ t.host = rest ∧ t.mem = s.mem) ∧
    (s.host = .newBuffer :: rest → step s = .next { s with host := rest, parser := ⟨.start, [], 0⟩ })

/-- Every state has a next state: nothing CORE does stops it (60_exceptions.md R290, R300). -/
def Obligations.EveryStepAnswersNext : Prop :=
  ∀ s : State, ∃ t : State, step s = .next t

/-- 10_state.md R50, for every strap, every initial MEM, and every state reset is applied to. -/
def Obligations.ResetLeavesTheRuleValues : Prop :=
  (∀ (s : State) (rest : List HostMove), s.host = .reset :: rest →
    ∃ t, step s = .next t ∧ (∀ r, t.readV r = []) ∧
      t.readSrc .vg = [true, false, false, false, false, false, false, false, false, false, false, false, false, false,
        false, false, true] ∧
      t.cfg = (if s.cfg.getLsbD 0 then 1 else 0) ∧ t.status = 0 ∧ t.res = 0 ∧ t.rlen = 0 ∧ t.synd = 0 ∧ t.diag = 0 ∧
      t.txLog = [] ∧ t.mem = s.mem) ∧
  (∀ (sc : Scheme) (m : Memory), (∀ r, (State.resetFor sc m).readV r = []) ∧
    (State.resetFor sc m).cfg = (match sc with | .crc => 0 | .ham => 1) ∧ (State.resetFor sc m).status = 0 ∧
    (State.resetFor sc m).res = 0 ∧ (State.resetFor sc m).rlen = 0 ∧ (State.resetFor sc m).synd = 0 ∧
    (State.resetFor sc m).diag = 0 ∧ (State.resetFor sc m).txLog = [] ∧ (State.resetFor sc m).mem = m)

/-- The invariant holds after reset, for every strap and every initial MEM in canonical form. -/
def Obligations.ResetSatisfiesTheInvariant : Prop :=
  Inv State.reset ∧ ∀ (sc : Scheme) (m : Memory), m.wf → m.inRange → Inv (State.resetFor sc m)

/-- Every step keeps the invariant, from every state that has it. -/
def Obligations.EveryStepKeepsTheInvariant : Prop :=
  ∀ s t : State, Inv s → step s = .next t → Inv t

/-! ### Rules about the whole machine -/

/-- 60_exceptions.md R290: a command ends with code 0, with an error kind's code and DIAG bit, or refused. -/
def Obligations.CommandEndsInOneOfThreeWays : Prop :=
  ∀ (i : Instr) (s : State), isCommand i = true → ∃ t, exec i s = .next t ∧
    ((∃ cls : HamClass, t.status = BitVec.ofNat 16 (16 * cls.code)) ∨
     (∃ k : ErrKind, t.status = BitVec.ofNat 16 k.code ∧ t.diag.getLsbD k.diagBit = true) ∨
     (∃ c : RefuseCode, t.status = BitVec.ofNat 16 c.code ∧ t.diag.getLsbD 6 = true))

/-- 60_exceptions.md R296: a presented command word, legal or illegal, that ends with a refusal code changed nothing but
STATUS, which holds that code with HCLASS 0, and DIAG.REFUSED; the next command is taken. -/
def Obligations.RefusalChangesOnlyStatusAndRefused : Prop :=
  ∀ (w : CmdWord) (rest : List HostMove) (s t : State), s.host = .present (.cmd w) :: rest → step s = .next t →
    8 ≤ t.err →
    (∃ c : RefuseCode, t = { s with host := rest, status := BitVec.ofNat 16 c.code, diag := s.diag ||| 0x40 }) ∧
    ∃ u, step t = .next u

/-- 60_exceptions.md R297 with the error kinds' rows of R291: a command that ends with an error kind wrote STATUS (the
kind's code, HCLASS 0), the kind's DIAG bit and the results the command records for that kind; the V registers, SYND,
tx_log and MEM are as before. CRC_VERIFY, HAM_VERIFY and FRM_DECODE are the only commands that end so. -/
def Obligations.ErrorKindLeavesDataUnchanged : Prop :=
  ∀ (i : Instr) (s t : State), isCommand i = true → exec i s = .next t → 1 ≤ t.err → t.err ≤ 5 →
    ∃ k : ErrKind,
      t = { s with status := BitVec.ofNat 16 k.code, diag := s.diag ||| BitVec.ofNat 8 (2 ^ k.diagBit)
                   res := t.res, rlen := t.rlen } ∧
      ((∃ rs, i = .crcVerify rs ∧ k = .crcMismatch ∧ t.res = 0 ∧ t.rlen = s.rlen) ∨
       (∃ rd rs, i = .hamVerify rd rs ∧ k = .tooShort ∧ t.res = s.res ∧ t.rlen = s.rlen) ∨
       (∃ src n dst, i = .frmDecode src n dst ∧ t.rlen = 0 ∧
          ((scan (s.mem.readBytes src.toNat n.toNat) = .fail k ∧ t.res = 0) ∨
           ∃ copy consumed, scan (s.mem.readBytes src.toNat n.toNat) = .ok copy consumed ∧
             (k = .crcMismatch ∨ k = .tooShort) ∧ t.res = BitVec.ofNat 16 consumed)))

/-- 60_exceptions.md R302: a command sets at most one DIAG bit, the bit of the code it reports, or HAM_SYNDROME on a
successful correction with a nonzero syndrome (DIAG_CLR, which clears DIAG, sets none). -/
def Obligations.CommandSetsAtMostOneDiagBit : Prop :=
  ∀ (i : Instr) (s t : State), isCommand i = true → exec i s = .next t →
    (i = .diagClr ∧ t.diag = 0) ∨ t.diag = s.diag ∨
    (∃ k : ErrKind, t.err = k.code ∧ t.diag = s.diag ||| BitVec.ofNat 8 (2 ^ k.diagBit)) ∨
    (∃ c : RefuseCode, t.err = c.code ∧ t.diag = s.diag ||| 0x40) ∨
    (writesSynd i = true ∧ t.err = 0 ∧ t.synd ≠ 0 ∧ t.diag = s.diag ||| 0x04)

/-- 44_system.md R282: DIAG_CLR clears DIAG and STATUS; a refused word, `DIAG_CLR` with a nonzero field among them,
clears no DIAG bit and sets REFUSED; and no step but DIAG_CLR and reset clears a DIAG bit. -/
def Obligations.DiagClearedOnlyByDiagClrOrReset : Prop :=
  (∀ s : State, exec .diagClr s = .next { s with diag := 0, status := 0 }) ∧
  decodeCmd 0x0100000000000000 = some .diagClr ∧
  (∀ w : CmdWord, fieldNat w 56 8 = 0x01 → w ≠ 0x0100000000000000 → ∀ (s : State) (rest : List HostMove),
    s.host = .present (.cmd w) :: rest → ∃ t, step s = .next t ∧ t.diag = s.diag ||| 0x40) ∧
  (∀ (s t : State) (k : Nat), step s = .next t → s.diag.getLsbD k = true → t.diag.getLsbD k = false →
    s.host.head? = some .reset ∨ ∃ p, s.host.head? = some (.present p) ∧ decode p = some .diagClr)

/-- 10_state.md R35 (b): the FRM commands neither read nor write V0 to V3. -/
def Obligations.FramingCommandsIgnoreTheBank : Prop :=
  ∀ (i : Instr) (s t : State) (a b c d : Bits), isFraming i = true → exec i s = .next t →
    (∀ r, t.readV r = s.readV r) ∧
    exec i { s with v0 := a, v1 := b, v2 := c, v3 := d } = .next { t with v0 := a, v1 := b, v2 := c, v3 := d }

/-- 10_state.md R39: no instruction and no step changes CFG (a step from a state whose CFG holds just the strap, which
is all it ever holds: bits 15:1 are 0); SCHEME selects only what FRM_ENCODE, FRM_DECODE and FRM_SEND call, and every
other instruction does the same whatever CFG holds. -/
def Obligations.SchemeIsConstantAndSteersFramingOnly : Prop :=
  (∀ s : State, s.scheme = if s.cfg.getLsbD 0 then .ham else .crc) ∧
  (∀ (i : Instr) (s t : State), exec i s = .next t → t.cfg = s.cfg) ∧
  (∀ s t : State, Inv s → step s = .next t → t.cfg = s.cfg ∧ ∀ k, 0 < k → t.cfg.getLsbD k = false) ∧
  (∀ (i : Instr) (s t : State) (c : Word16), usesScheme i = false → exec i s = .next t →
    exec i { s with cfg := c } = .next { t with cfg := c })

/-- 10_state.md R38: no command reads STATUS, RES, RLEN or SYND: with other values there, the same effect. -/
def Obligations.NoInstructionReadsAResultRegister : Prop :=
  ∀ (i : Instr) (s t : State) (st re rl : Word16) (sy : Byte), exec i s = .next t →
    ∃ u, exec i { s with status := st, res := re, rlen := rl, synd := sy } = .next u ∧
      (∀ r, u.readV r = t.readV r) ∧ u.mem = t.mem ∧ u.txLog = t.txLog ∧ u.diag = t.diag ∧ u.parser = t.parser ∧
      (isCommand i = true → u.status = t.status) ∧ (u.res = t.res ∨ (u.res = re ∧ t.res = s.res)) ∧
      (u.rlen = t.rlen ∨ (u.rlen = rl ∧ t.rlen = s.rlen)) ∧ (u.synd = t.synd ∨ (u.synd = sy ∧ t.synd = s.synd))

/-! ### System and bit-vector commands -/

/-- 44_system.md R281: NOP writes STATUS only; a nonzero field makes the word illegal. -/
def Obligations.NopClearsStatusOnly : Prop :=
  decodeCmd 0x0000000000000000 = some .nop ∧
  (∀ w : CmdWord, fieldNat w 56 8 = 0x00 → w ≠ 0 → decodeCmd w = none) ∧
  ∀ s : State, exec .nop s = .next { s with status := 0 }

/-- 40_bitvector.md R145, R146: BV_CLR empties the register; BV_GET gives the bit, 0 at or beyond the length, and for
VG 1 at indices 0 and 16 only. -/
def Obligations.BvClrAndBvGetResults : Prop :=
  ∀ s : State,
    (∀ rd, encode (.bvClr rd) = wordOf 0x10 rd.spec.toNat 0 0 0 0) ∧
    (∀ rs idx, encode (.bvGet rs idx) = wordOf 0x11 0 rs.spec.toNat idx.toNat 0 0) ∧
    (∀ rd, exec (.bvClr rd) s = .next { s.writeV rd [] with status := 0 }) ∧
    (∀ (rs : VSrc) (idx : Word16), exec (.bvGet rs idx) s = .next { s with
      res := (if (s.readSrc rs)[idx.toNat]? = some true then 1 else 0), status := 0 }) ∧
    (∀ idx : Word16, exec (.bvGet .vg idx) s = .next { s with
      res := (if idx.toNat = 0 ∨ idx.toNat = 16 then 1 else 0), status := 0 })

/-- 40_bitvector.md R142, R147: BV_SET writes the bit and grows the register with zeros; at BV_CAP it is refused. -/
def Obligations.BvSetWritesOneBitAndGrows : Prop :=
  ∀ (rd : VReg) (idx : Word16) (bit : Bool) (s : State),
    encode (.bvSet rd idx bit) = wordOf 0x12 rd.spec.toNat 0 idx.toNat bit.toNat 0 ∧
    (idx.toNat < 256 → ∃ w : Bits, exec (.bvSet rd idx bit) s = .next { s.writeV rd w with status := 0 } ∧
      w.length = max (s.readV rd).length (idx.toNat + 1) ∧
      ∀ j, w.getD j false = if j = idx.toNat then bit else (s.readV rd).getD j false) ∧
    (256 ≤ idx.toNat → exec (.bvSet rd idx bit) s = .next { s with status := 10, diag := s.diag ||| 0x40 })

/-- 40_bitvector.md R148 with 20_memory.md R71: BV_LOAD gives 8n bits, least significant first, lower address first. -/
def Obligations.BvLoadReadsBytesLowBitFirst : Prop :=
  ∀ (rd : VReg) (addr n : Word16) (s : State),
    encode (.bvLoad rd addr n) = wordOf 0x13 rd.spec.toNat 0 addr.toNat n.toNat 0 ∧
    (addr.toNat + n.toNat ≤ 65536 → n.toNat ≤ 32 →
      ∃ w : Bits, exec (.bvLoad rd addr n) s = .next { s.writeV rd w with status := 0 } ∧ w.length = 8 * n.toNat ∧
        ∀ k b, k < n.toNat → b < 8 → w.getD (8 * k + b) false = (s.mem.read (addr.toNat + k)).getLsbD b) ∧
    (65536 < addr.toNat + n.toNat →
      exec (.bvLoad rd addr n) s = .next { s with status := 9, diag := s.diag ||| 0x40 }) ∧
    (addr.toNat + n.toNat ≤ 65536 → 32 < n.toNat →
      exec (.bvLoad rd addr n) s = .next { s with status := 10, diag := s.diag ||| 0x40 })

/-- 40_bitvector.md R149 with 20_memory.md R72: BV_STORE writes ceil(len/8) bytes at addr, the last one padded with
zeros, and nothing else in MEM. -/
def Obligations.BvStoreWritesPaddedBytes : Prop :=
  ∀ (rs : VSrc) (addr : Word16) (s : State),
    encode (.bvStore rs addr) = wordOf 0x14 0 rs.spec.toNat addr.toNat 0 0 ∧
    (addr.toNat + ((s.readSrc rs).length + 7) / 8 ≤ 65536 →
      ∃ m : Memory, exec (.bvStore rs addr) s = .next { s with
          mem := m, rlen := BitVec.ofNat 16 (((s.readSrc rs).length + 7) / 8), status := 0 } ∧
        (∀ k b, k < ((s.readSrc rs).length + 7) / 8 → b < 8 →
          (m.read (addr.toNat + k)).getLsbD b = (s.readSrc rs).getD (8 * k + b) false) ∧
        ∀ a, a < addr.toNat ∨ addr.toNat + ((s.readSrc rs).length + 7) / 8 ≤ a → m.read a = s.mem.read a) ∧
    (65536 < addr.toNat + ((s.readSrc rs).length + 7) / 8 →
      exec (.bvStore rs addr) s = .next { s with status := 9, diag := s.diag ||| 0x40 })

/-- 40_bitvector.md R143, R150: BV_XOR XORs the snapshot of the source into the destination at the offset and grows
it when needed; an empty source changes nothing; past BV_CAP it is refused. -/
def Obligations.BvXorAtOffset : Prop :=
  ∀ (rd : VReg) (rs : VSrc) (off : Word16) (s : State),
    encode (.bvXor rd rs off) = wordOf 0x15 rd.spec.toNat rs.spec.toNat off.toNat 0 0 ∧
    ((s.readSrc rs).length = 0 → exec (.bvXor rd rs off) s = .next { s with status := 0 }) ∧
    (0 < (s.readSrc rs).length → off.toNat + (s.readSrc rs).length ≤ 256 →
      ∃ u : Bits, exec (.bvXor rd rs off) s = .next { s.writeV rd u with status := 0 } ∧
        u.length = max (s.readV rd).length (off.toNat + (s.readSrc rs).length) ∧
        ∀ i, u.getD i false = if off.toNat ≤ i ∧ i < off.toNat + (s.readSrc rs).length
          then ((s.readV rd).getD i false ^^ (s.readSrc rs).getD (i - off.toNat) false)
          else (s.readV rd).getD i false) ∧
    (0 < (s.readSrc rs).length → 256 < off.toNat + (s.readSrc rs).length →
      exec (.bvXor rd rs off) s = .next { s with status := 10, diag := s.diag ||| 0x40 })

/-- 20_memory.md R72: bytes and bits are inverse, up to the zero padding of the last byte. -/
def Obligations.BytesAndBitsAreInverse : Prop :=
  (∀ B : List Byte, bytes (bits B) = B) ∧
  (∀ v : Bits, (bytes v).length = (v.length + 7) / 8 ∧
    (∀ k b, k < (bytes v).length → b < 8 → ((bytes v).getD k 0).getLsbD b = v.getD (8 * k + b) false) ∧
    bits (bytes v) = v ++ List.replicate ((8 - v.length % 8) % 8) false)

/-! ### CRC -/

/-- 41_crc.md R171, R175: CRC_DIV writes the long division of the source: same length, unchanged below 17 bits, zero
in all but the last 16 bits, which are the fold of the dividend modulo x^16 + 1. -/
def Obligations.CrcDivLeavesTheRemainder : Prop :=
  ∀ (rd : VReg) (rs : VSrc) (s : State),
    encode (.crcDiv rd rs) = wordOf 0x20 rd.spec.toNat rs.spec.toNat 0 0 0 ∧ ∃ D : Bits,
    exec (.crcDiv rd rs) s = .next { s.writeV rd D with status := 0 } ∧
    D.length = (s.readSrc rs).length ∧ ((s.readSrc rs).length < 17 → D = s.readSrc rs) ∧
    (16 ≤ (s.readSrc rs).length → ∀ i, i < (s.readSrc rs).length →
      D.getD i false = (decide ((s.readSrc rs).length - 16 ≤ i) && residueParity (s.readSrc rs) i))

/-- 41_crc.md R176: CRC_REM puts remainder bit j in RES[j], for every length; the first trailer byte is RES[7:0] and
the second RES[15:8]. -/
def Obligations.CrcRemPutsTheRemainderInRes : Prop :=
  ∀ (rs : VSrc) (s : State),
    encode (.crcRem rs) = wordOf 0x21 0 rs.spec.toNat 0 0 0 ∧ ∃ r : Word16,
    exec (.crcRem rs) s = .next { s with res := r, status := 0 } ∧ (crcRem (s.readSrc rs)).length = 16 ∧
    (∀ j, j < 16 → r.getLsbD j = (crcRem (s.readSrc rs)).getD j false) ∧
    bytes (crcRem (s.readSrc rs)) = [r.extractLsb' 0 8, r.extractLsb' 8 8] ∧
    (s.readSrc rs = [] → r = 0)

/-- 41_crc.md R180: the CRC of this hardware is a 16-bit longitudinal XOR of the vector's bits. -/
def Obligations.CrcIsTheLongitudinalFold : Prop :=
  ∀ (v : Bits) (j : Nat), j < 16 → (crcRem v).getD j false = residueParity v (v.length + j)

/-- 41_crc.md R177: CRC_APPEND gives the source followed by its 16 remainder bits; above 240 bits it is refused. -/
def Obligations.CrcAppendGivesTheCodeword : Prop :=
  ∀ (rd : VReg) (rs : VSrc) (s : State),
    encode (.crcAppend rd rs) = wordOf 0x22 rd.spec.toNat rs.spec.toNat 0 0 0 ∧
    ((s.readSrc rs).length ≤ 240 → ∃ r : Bits, r.length = 16 ∧ r = crcRem (s.readSrc rs) ∧
      exec (.crcAppend rd rs) s = .next { s.writeV rd (s.readSrc rs ++ r) with status := 0 }) ∧
    (240 < (s.readSrc rs).length →
      exec (.crcAppend rd rs) s = .next { s with status := 10, diag := s.diag ||| 0x40 })

/-- 41_crc.md R174, R178: CRC_VERIFY reports 1 when dividing the source leaves zero, else 0 with CrcMismatch; the
source is not changed. -/
def Obligations.CrcVerifyReportsTheCheck : Prop :=
  ∀ (rs : VSrc) (s : State),
    encode (.crcVerify rs) = wordOf 0x23 0 rs.spec.toNat 0 0 0 ∧
    ((∀ b ∈ polydiv (s.readSrc rs), b = false) → exec (.crcVerify rs) s = .next { s with res := 1, status := 0 }) ∧
    ((∃ b ∈ polydiv (s.readSrc rs), b = true) →
      exec (.crcVerify rs) s = .next { s with res := 0, status := 2, diag := s.diag ||| 0x02 })

/-- 41_crc.md R179 (a), for any generator of 17 bits with leading bit 1: the division is linear. -/
def Obligations.PolydivIsLinear : Prop :=
  ∀ g u w : Bits, g.length = 17 → g.getD 0 false = true → u.length = w.length →
    polydivBy g (xorVec u w) = xorVec (polydivBy g u) (polydivBy g w)

/-- 41_crc.md R179 (b), (c), for any generator of 17 bits with leading bit 1: an appended codeword passes the check,
and a vector of 16 bits or more passes exactly when its last 16 bits are the remainder of the rest. -/
def Obligations.CrcCheckIsRemainderComparison : Prop :=
  ∀ g v : Bits, g.length = 17 → g.getD 0 false = true →
    crcOkBy g (crcAppendBy g v) = true ∧
    (16 ≤ v.length →
      (crcOkBy g v = true ↔ crcRemBy g (v.take (v.length - 16)) = v.drop (v.length - 16)))

/-- 41_crc.md R182: detection depends on the error pattern alone; a pattern passes exactly when it flips an even number
of bits in each residue class modulo 16; a single flipped bit never passes. -/
def Obligations.CrcDetectionPower : Prop :=
  (∀ c e : Bits, c.length = e.length → crcOk c = true → (crcOk (xorVec c e) = true ↔ crcOk e = true)) ∧
  (∀ e : Bits, crcOk e = true ↔ ∀ j, j < 16 → residueParity e (e.length + j) = false) ∧
  (∀ (c : Bits) (i : Nat), i < c.length → crcOk c = true → crcOk (flipBit c i) = false)

/-- 41_crc.md R181: the CRC trailer of a chunk is two bytes, the XOR of every second byte from the end: T0 over i with
k - i even, T1 over i with k - i odd. -/
def Obligations.CrcTrailerIsTheAlternateFold : Prop :=
  ∀ P : List Byte, trailer .crc P = [alternateFold P 0, alternateFold P 1]

/-! ### Hamming -/

/-- 42_hamming.md R201, R202: hamPos lists, in order, exactly the integers from 3 on that are no power of two, and
hamIndex, s - 2 - floor(log2 s), is its inverse. -/
def Obligations.HamPositionsSkipPowersOfTwo : Prop :=
  (∀ d, 3 ≤ hamPos d ∧ ¬ (∃ k, hamPos d = 2 ^ k) ∧ hamPos d < hamPos (d + 1) ∧ hamIndex (hamPos d) = d) ∧
  (∀ p, 3 ≤ p → ¬ (∃ k, p = 2 ^ k) → hamPos (hamIndex p) = p) ∧
  (∀ s k, 2 ^ k ≤ s → s < 2 ^ (k + 1) → hamIndex s = s - 2 - k)

/-- 42_hamming.md R203, R204: check bit k of the parity is the XOR of the data bits whose position has bit k set; the
positions of 247 data bits fit eight bits, and a chunk of 64 data bits leaves bit 7 clear. -/
def Obligations.ParityCircuitsMatchThePositions : Prop :=
  ∀ v : Bits, v.length ≤ 247 →
    (∀ k, k < 8 → (hamParity v).getLsbD k =
      xorOver ((List.range v.length).filter fun d => (hamPos d).testBit k) (fun d => v.getD d false)) ∧
    (∀ d, d < v.length → hamPos d < 256) ∧ (v.length ≤ 64 → (hamParity v).getLsbD 7 = false)

/-- 42_hamming.md R207, R209: HAM_PARITY puts the parity in RES[7:0]; HAM_APPEND gives the data followed by the check
bits, bit k of the parity at index len + k; above 247 bits both are refused. -/
def Obligations.HamParityAndHamAppendResults : Prop :=
  ∀ (rd : VReg) (rs : VSrc) (s : State),
    encode (.hamParity rs) = wordOf 0x30 0 rs.spec.toNat 0 0 0 ∧
    encode (.hamAppend rd rs) = wordOf 0x32 rd.spec.toNat rs.spec.toNat 0 0 0 ∧
    ((s.readSrc rs).length ≤ 247 →
      exec (.hamParity rs) s = .next { s with res := (hamParity (s.readSrc rs)).setWidth 16, status := 0 } ∧
      ∃ p : Bits, exec (.hamAppend rd rs) s = .next { s.writeV rd (s.readSrc rs ++ p) with status := 0 } ∧
        p.length = 8 ∧ ∀ k, k < 8 → p.getD k false = (hamParity (s.readSrc rs)).getLsbD k) ∧
    (247 < (s.readSrc rs).length →
      exec (.hamParity rs) s = .next { s with status := 12, diag := s.diag ||| 0x40 } ∧
      exec (.hamAppend rd rs) s = .next { s with status := 12, diag := s.diag ||| 0x40 })

/-- 42_hamming.md R205, R208: HAM_CORRECT by the syndrome: zero, a power of two, a data slot inside the vector, or a
slot beyond it; SYND and RES take the syndrome, HCLASS the class, DIAG.HAM_SYNDROME is set for a nonzero one. -/
def Obligations.HamCorrectFollowsTheSyndrome : Prop :=
  ∀ (rd : VReg) (par : Byte) (s : State) (syn : Byte), syn = hamParity (s.readV rd) ^^^ par →
    encode (.hamCorrect rd par) = wordOf 0x31 rd.spec.toNat 0 par.toNat 0 0 ∧
    ((s.readV rd).length ≤ 247 →
      (syn = 0 → exec (.hamCorrect rd par) s = .next { s with synd := 0, res := 0, status := 0 }) ∧
      ((∃ k, syn.toNat = 2 ^ k) → exec (.hamCorrect rd par) s = .next { s with
        synd := syn, res := syn.setWidth 16, status := 0x20, diag := s.diag ||| 0x04 }) ∧
      (syn ≠ 0 → ¬ (∃ k, syn.toNat = 2 ^ k) → hamIndex syn.toNat < (s.readV rd).length →
        exec (.hamCorrect rd par) s = .next { s.writeV rd
            ((s.readV rd).set (hamIndex syn.toNat) (!(s.readV rd).getD (hamIndex syn.toNat) false)) with
          synd := syn, res := syn.setWidth 16, status := 0x10, diag := s.diag ||| 0x04 }) ∧
      (syn ≠ 0 → ¬ (∃ k, syn.toNat = 2 ^ k) → (s.readV rd).length ≤ hamIndex syn.toNat →
        exec (.hamCorrect rd par) s = .next { s with
          synd := syn, res := syn.setWidth 16, status := 0x30, diag := s.diag ||| 0x04 })) ∧
    (247 < (s.readV rd).length →
      exec (.hamCorrect rd par) s = .next { s with status := 12, diag := s.diag ||| 0x40 })

/-- 42_hamming.md R210: HAM_VERIFY splits off the last 8 bits as the received parity and writes the corrected data,
the syndrome and the class; above 255 bits it is refused, below 8 it ends TooShort. -/
def Obligations.HamVerifyCorrectsTheCodeword : Prop :=
  ∀ (rd : VReg) (rs : VSrc) (s : State) (v : Bits) (par : Byte),
    encode (.hamVerify rd rs) = wordOf 0x33 rd.spec.toNat rs.spec.toNat 0 0 0 ∧
    (s.readSrc rs = v ++ (List.range 8).map par.getLsbD → v.length ≤ 247 →
      exec (.hamVerify rd rs) s = .next { s.writeV rd (hamCorrect v par).1 with
        synd := (hamCorrect v par).2.1
        res := (hamCorrect v par).2.1.setWidth 16
        status := BitVec.ofNat 16 (16 * (hamCorrect v par).2.2.code)
        diag := if (hamCorrect v par).2.1 = 0 then s.diag else s.diag ||| 0x04 }) ∧
    (255 < (s.readSrc rs).length →
      exec (.hamVerify rd rs) s = .next { s with status := 12, diag := s.diag ||| 0x40 }) ∧
    ((s.readSrc rs).length < 8 →
      exec (.hamVerify rd rs) s = .next { s with status := 5, diag := s.diag ||| 0x20 })

/-- 42_hamming.md R211: no flip, one data flip, one check-bit flip, for every vector of at most 247 bits. -/
def Obligations.SingleErrorCorrection : Prop :=
  ∀ v : Bits, v.length ≤ 247 →
    hamCorrect v (hamParity v) = (v, 0, .noError) ∧
    (∀ d, d < v.length →
      hamCorrect (flipBit v d) (hamParity v) = (v, BitVec.ofNat 8 (hamPos d), .dataCorrected)) ∧
    (∀ k, k < 8 →
      hamCorrect v (hamParity v ^^^ BitVec.ofNat 8 (2 ^ k)) = (v, BitVec.ofNat 8 (2 ^ k), .checkBitError))

/-- The source's property 5 on the machine: a codeword HAM_APPEND builds, with any one of its bits flipped, data or
check bit, is restored by HAM_VERIFY, with ERR 0 and the class that tells the two apart. -/
def Obligations.HamVerifyRepairsAnySingleFlip : Prop :=
  ∀ (rd rd' : VReg) (rs : VSrc) (s : State) (i : Nat), (s.readSrc rs).length ≤ 247 →
    i < (s.readSrc rs).length + 8 →
    ∃ t, exec (.hamAppend rd rs) s = .next t ∧
      ∃ u, exec (.hamVerify rd' (.reg rd)) (t.writeV rd (flipBit (t.readV rd) i)) = .next u ∧
        u.readV rd' = s.readSrc rs ∧ u.err = 0 ∧ u.hclass = (if i < (s.readSrc rs).length then 1 else 2)

/-! ### Framing -/

/-- 43_framing.md R241: FRM_ENCODE writes the frame of the chunk at dst, nothing else in MEM; the checks in order. The
frame's length is the one of R234 and 30_encoding.md R110. -/
def Obligations.FrmEncodeWritesTheFrame : Prop :=
  ∀ (src n dst : Word16) (s : State) (F : List Byte),
    F = frame s.scheme (s.mem.readBytes src.toNat n.toNat) →
    encode (.frmEncode src n dst) = wordOf 0x40 0 0 src.toNat n.toNat dst.toNat ∧
    (1 ≤ n.toNat → n.toNat ≤ 8 → src.toNat + n.toNat ≤ 65536 → dst.toNat + F.length ≤ 65536 →
      ∃ m : Memory, exec (.frmEncode src n dst) s = .next { s with
          mem := m, rlen := BitVec.ofNat 16 F.length, status := 0 } ∧
        (∀ k, k < F.length → m.read (dst.toNat + k) = F.getD k 0) ∧
        (∀ a, a < dst.toNat ∨ dst.toNat + F.length ≤ a → m.read a = s.mem.read a) ∧
        F.length = n.toNat + ntag (s.mem.readBytes src.toNat n.toNat) + (match s.scheme with | .crc => 2 | .ham => 1) + 2 ∧
        (match s.scheme with | .crc => 5 ≤ F.length ∧ F.length ≤ 20 | .ham => 4 ≤ F.length ∧ F.length ≤ 19)) ∧
    (n.toNat = 0 ∨ 8 < n.toNat →
      exec (.frmEncode src n dst) s = .next { s with status := 11, diag := s.diag ||| 0x40 }) ∧
    (1 ≤ n.toNat → n.toNat ≤ 8 → 65536 < src.toNat + n.toNat ∨ 65536 < dst.toNat + F.length →
      exec (.frmEncode src n dst) s = .next { s with status := 9, diag := s.diag ||| 0x40 })

/-- 43_framing.md R236, R242: FRM_COMPLETE looks at the last two bytes of the range only. -/
def Obligations.FrmCompleteLooksAtTwoBytes : Prop :=
  ∀ (src n : Word16) (s : State),
    encode (.frmComplete src n) = wordOf 0x41 0 0 src.toNat n.toNat 0 ∧
    (src.toNat + n.toNat ≤ 65536 → exec (.frmComplete src n) s = .next { s with
      res := (if 2 ≤ n.toNat ∧ s.mem.read (src.toNat + n.toNat - 1) = 0x7D ∧
          s.mem.read (src.toNat + n.toNat - 2) ≠ 0x5C then 1 else 0)
      status := 0 }) ∧
    (65536 < src.toNat + n.toNat →
      exec (.frmComplete src n) s = .next { s with status := 9, diag := s.diag ||| 0x40 })

/-- 43_framing.md R243, steps 2 to 6: the cases in which FRM_DECODE delivers no payload, in order. -/
def Obligations.FrmDecodeErrorsInOrder : Prop :=
  ∀ (src n dst : Word16) (s : State) (B : List Byte), B = s.mem.readBytes src.toNat n.toNat →
    encode (.frmDecode src n dst) = wordOf 0x42 0 0 src.toNat n.toNat dst.toNat ∧
    (65536 < src.toNat + n.toNat →
      exec (.frmDecode src n dst) s = .next { s with status := 9, diag := s.diag ||| 0x40 }) ∧
    (src.toNat + n.toNat ≤ 65536 →
      (∀ k, scanLoop B = .fail k → exec (.frmDecode src n dst) s = .next { s with
        res := 0, rlen := 0, status := BitVec.ofNat 16 k.code, diag := s.diag ||| BitVec.ofNat 8 (2 ^ k.diagBit) }) ∧
      (∀ copy consumed, scanLoop B = .ok copy consumed →
        (copy.length < (match s.scheme with | .crc => 2 | .ham => 1) → exec (.frmDecode src n dst) s = .next { s with
          res := BitVec.ofNat 16 consumed, rlen := 0, status := 5, diag := s.diag ||| 0x20 }) ∧
        (s.scheme = .ham → 32 ≤ copy.length →
          exec (.frmDecode src n dst) s = .next { s with status := 12, diag := s.diag ||| 0x40 }) ∧
        (s.scheme = .crc → 2 ≤ copy.length → crcOk (bits copy) = false →
          exec (.frmDecode src n dst) s = .next { s with
            res := BitVec.ofNat 16 consumed, rlen := 0, status := 2, diag := s.diag ||| 0x02 })))

/-- 43_framing.md R243, steps 7 and 8: FRM_DECODE delivers the payload at dst, or is refused when it does not fit. -/
def Obligations.FrmDecodeDeliversThePayload : Prop :=
  ∀ (src n dst : Word16) (s : State) (copy : List Byte) (consumed : Nat), src.toNat + n.toNat ≤ 65536 →
    scanLoop (s.mem.readBytes src.toNat n.toNat) = .ok copy consumed →
    (s.scheme = .crc → 2 ≤ copy.length → crcOk (bits copy) = true →
      (dst.toNat + (copy.length - 2) ≤ 65536 → exec (.frmDecode src n dst) s = .next { s with
        mem := s.mem.writeBytes dst.toNat (copy.take (copy.length - 2))
        rlen := BitVec.ofNat 16 (copy.length - 2), res := BitVec.ofNat 16 consumed, status := 0 }) ∧
      (65536 < dst.toNat + (copy.length - 2) →
        exec (.frmDecode src n dst) s = .next { s with status := 9, diag := s.diag ||| 0x40 })) ∧
    (s.scheme = .ham → ∀ (data : List Byte) (par : Byte), copy = data ++ [par] → data.length ≤ 30 →
      (dst.toNat + data.length ≤ 65536 → exec (.frmDecode src n dst) s = .next { s with
        mem := s.mem.writeBytes dst.toNat (bytes (hamCorrect (bits data) par).1)
        rlen := BitVec.ofNat 16 data.length, res := BitVec.ofNat 16 consumed
        synd := (hamCorrect (bits data) par).2.1
        status := BitVec.ofNat 16 (16 * (hamCorrect (bits data) par).2.2.code)
        diag := if (hamCorrect (bits data) par).2.1 = 0 then s.diag else s.diag ||| 0x04 }) ∧
      (65536 < dst.toNat + data.length →
        exec (.frmDecode src n dst) s = .next { s with status := 9, diag := s.diag ||| 0x40 }))

/-- 43_framing.md R235, R244: FRM_SEND appends the frame of each chunk of at most 8 bytes, in order, and nothing for
an empty message; the chunks joined are the message. -/
def Obligations.FrmSendAppendsOneFramePerChunk : Prop :=
  ∀ (src n : Word16) (s : State),
    encode (.frmSend src n) = wordOf 0x43 0 0 src.toNat n.toNat 0 ∧
    (src.toNat + n.toNat ≤ 65536 → ∃ cs : List (List Byte),
      exec (.frmSend src n) s = .next { s with
        txLog := s.txLog ++ cs.map (frame s.scheme), rlen := BitVec.ofNat 16 ((n.toNat + 7) / 8), status := 0 } ∧
      cs.flatten = s.mem.readBytes src.toNat n.toNat ∧ cs.length = (n.toNat + 7) / 8 ∧
      (∀ P ∈ cs, 1 ≤ P.length ∧ P.length ≤ 8) ∧ (∀ P ∈ cs.dropLast, P.length = 8)) ∧
    (65536 < src.toNat + n.toNat →
      exec (.frmSend src n) s = .next { s with status := 9, diag := s.diag ||| 0x40 })

/-- 43_framing.md R237: the table of the escape-sequence parser, by byte class, and what each state means when the
buffer ends; a byte of the wire changes the parser and nothing else. That a stopped parser reads nothing more is the
model's reading (log entry 6). -/
def Obligations.WireBytesFollowTheParserTable : Prop :=
  ∀ (s : State) (x : Byte) (c : List Byte) (i : Nat),
    (s.parser = ⟨.start, c, i⟩ →
      exec .wireStart s = .next { s with parser := ⟨.data, c, i + 1⟩ } ∧
      exec .wireStop s = .next { s with parser := ⟨.missingStart, c, i + 1⟩ } ∧
      exec .wireEsc s = .next { s with parser := ⟨.missingStart, c, i + 1⟩ } ∧
      ((Instr.wireData x).wellFormed = true →
        exec (.wireData x) s = .next { s with parser := ⟨.missingStart, c, i + 1⟩ })) ∧
    (s.parser = ⟨.data, c, i⟩ →
      exec .wireStart s = .next { s with parser := ⟨.data, c ++ [0x7B], i + 1⟩ } ∧
      exec .wireStop s = .next { s with parser := ⟨.done, c, i + 1⟩ } ∧
      exec .wireEsc s = .next { s with parser := ⟨.esc, c, i + 1⟩ } ∧
      ((Instr.wireData x).wellFormed = true →
        exec (.wireData x) s = .next { s with parser := ⟨.data, c ++ [x], i + 1⟩ })) ∧
    (s.parser = ⟨.esc, c, i⟩ →
      exec .wireStart s = .next { s with parser := ⟨.data, c ++ [0x7B], i + 1⟩ } ∧
      exec .wireStop s = .next { s with parser := ⟨.data, c ++ [0x7D], i + 1⟩ } ∧
      exec .wireEsc s = .next { s with parser := ⟨.data, c ++ [0x5C], i + 1⟩ } ∧
      exec (.wireData x) s = .next { s with parser := ⟨.data, c ++ [x], i + 1⟩ }) ∧
    (s.parser.phase = .done ∨ s.parser.phase = .missingStart →
      exec .wireStart s = .next s ∧ exec .wireStop s = .next s ∧ exec .wireEsc s = .next s ∧
      exec (.wireData x) s = .next s) ∧
    (Parser.verdict ⟨.start, c, i⟩ = .fail .missingStartTag ∧ Parser.verdict ⟨.data, c, i⟩ = .fail .noStopTag ∧
      Parser.verdict ⟨.esc, c, i⟩ = .fail .malformedEscape ∧ Parser.verdict ⟨.done, c, i⟩ = .ok c i ∧
      Parser.verdict ⟨.missingStart, c, i⟩ = .fail .missingStartTag)

/-- 43_framing.md R238, 10_state.md R37: the parser run over a buffer, inside a command or one wire byte at a time,
gives the result of the rule's loop. The move that starts a new buffer is the model's choice (log entry 7), as are the
list of pending moves and the parser kept between wire bytes (log entries 3 and 5). -/
def Obligations.ByteAtATimeParserEqualsTheLoop : Prop :=
  (∀ B : List Byte, scan B = scanLoop B) ∧
  ∀ (s : State) (B : List Byte), ∃ p : Parser,
    Host.Core.run Sys2Proof.core (B.length + 1) { s with host := feedMoves B } = .next { s with host := [], parser := p } ∧
    p.verdict = scanLoop B

/-- 43_framing.md R231, R232, R239: (a) escaping then parsing returns the bytes; (b) the escaped list is, byte by byte
in order, 5C and the byte for a byte 7B, 7D or 5C and the byte alone for any other, so its length is that of the list
and the number of tag-valued bytes, and every 7B and every 7D in it stands directly after a 5C; (c) bytes with no
escape and no stop tag need no escaping; (d) a buffer that starts with 7B and passes the completeness test has a stop
tag, and 7B 5C 5C 7D has one though it does not pass. -/
def Obligations.EscapingThenParsingReturnsTheBytes : Prop :=
  (∀ X : List Byte, scan ([0x7B] ++ esc X ++ [0x7D]) = .ok X ((esc X).length + 2)) ∧
  (∀ X : List Byte, ∃ pieces : List (List Byte), esc X = pieces.flatten ∧
    List.Forall₂ (fun x piece =>
      ((x = 0x7B ∨ x = 0x7D ∨ x = 0x5C) → piece = [0x5C, x]) ∧ (x ≠ 0x7B → x ≠ 0x7D → x ≠ 0x5C → piece = [x]))
      X pieces) ∧
  (∀ X : List Byte, (esc X).length = X.length + ntag X) ∧
  (∀ (X : List Byte) (i : Nat), (esc X)[i]? = some 0x7B ∨ (esc X)[i]? = some 0x7D →
    ∃ j, i = j + 1 ∧ (esc X)[j]? = some 0x5C) ∧
  (∀ X : List Byte, (∀ x ∈ X, x ≠ 0x5C ∧ x ≠ 0x7D) → scan ([0x7B] ++ X ++ [0x7D]) = .ok X (X.length + 2)) ∧
  (∀ B : List Byte, isComplete B = true → B.head? = some 0x7B → ∃ copy consumed, scan B = .ok copy consumed) ∧
  isComplete [0x7B, 0x5C, 0x5C, 0x7D] = false ∧ scan [0x7B, 0x5C, 0x5C, 0x7D] = .ok [0x5C] 4

/-- 43_framing.md R245: a frame decodes to its chunk, all its bytes consumed and under HAM with syndrome 0, exactly
when the chunk is trailer-safe. -/
def Obligations.FrameRoundTripIffTrailerSafe : Prop :=
  ∀ (sc : Scheme) (P : List Byte), 1 ≤ P.length → P.length ≤ 8 →
    (decodeFrame sc (frame sc P) =
        .ok P (frame sc P).length (match sc with | .crc => none | .ham => some (0, .noError)) ↔ TrailerSafe sc P)

/-- 43_framing.md R246: the frame of a trailer-safe chunk passes the completeness test and no proper prefix does. -/
def Obligations.CompletenessOfTrailerSafeFrames : Prop :=
  ∀ (sc : Scheme) (P : List Byte), 1 ≤ P.length → P.length ≤ 8 → TrailerSafe sc P →
    isComplete (frame sc P) = true ∧ ∀ j, j < (frame sc P).length → isComplete ((frame sc P).take j) = false

/-- FRM_ENCODE then FRM_DECODE on the frame it wrote restores a trailer-safe chunk at the new place, with ERR 0, RES
the length of the frame and RLEN the length of the chunk, in every state and under either scheme. -/
def Obligations.EncodeThenDecodeRestoresTheChunk : Prop :=
  ∀ (src n dst out : Word16) (s : State), 1 ≤ n.toNat → n.toNat ≤ 8 → src.toNat + n.toNat ≤ 65536 →
    dst.toNat + (frame s.scheme (s.mem.readBytes src.toNat n.toNat)).length ≤ 65536 → out.toNat + n.toNat ≤ 65536 →
    TrailerSafe s.scheme (s.mem.readBytes src.toNat n.toNat) →
    ∃ t, exec (.frmEncode src n dst) s = .next t ∧
      ∃ u, exec (.frmDecode dst t.rlen out) t = .next u ∧ u.status = 0 ∧ u.res = t.rlen ∧ u.rlen = n ∧
        u.mem.readBytes out.toNat n.toNat = s.mem.readBytes src.toNat n.toNat

/-- 43_framing.md R247: when every chunk of the message is trailer-safe, decoding the entries FRM_SEND appended one by
one and joining the payloads gives the message. -/
def Obligations.SentMessageDecodesBack : Prop :=
  ∀ (src n : Word16) (s : State), src.toNat + n.toNat ≤ 65536 →
    (∀ P ∈ chunks (s.mem.readBytes src.toNat n.toNat), TrailerSafe s.scheme P) →
    ∃ (t : State) (sent Ps : List (List Byte)), exec (.frmSend src n) s = .next t ∧ t.txLog = s.txLog ++ sent ∧
      List.Forall₂ (fun F P => ∃ ham, decodeFrame s.scheme F = .ok P F.length ham) sent Ps ∧
      Ps.flatten = s.mem.readBytes src.toNat n.toNat

/-- 70_reset_and_hazards.md R354: under HAM every chunk of 1 to 7 bytes is trailer-safe; under CRC the one-byte chunks
that are not are exactly 5C and 7D. -/
def Obligations.ShortChunksAndTrailerSafety : Prop :=
  (∀ P : List Byte, 1 ≤ P.length → P.length ≤ 7 → TrailerSafe .ham P) ∧
  (∀ x : Byte, TrailerSafe .crc [x] ↔ x ≠ 0x5C ∧ x ≠ 0x7D)

/-! ### Frames: what an instruction leaves unchanged (10_state.md R51) -/

/-- The commands that store nothing (the system, CRC and HAM units, BV but BV_STORE, FRM_COMPLETE, FRM_SEND): all but
the destination register, STATUS and the result registers, DIAG bits and log the command's rule names stays, every
byte of MEM included; FRM_SEND only appends to tx_log. -/
def Obligations.NonStoringCommandsFrame : Prop :=
  ∀ (i : Instr) (s t : State), isCommand i = true → writesMem i = false → exec i s = .next t →
    FrameKept i s t ∧ (∀ a, t.mem.read a = s.mem.read a) ∧ s.txLog <+: t.txLog

/-- BV_STORE and FRM_ENCODE: every byte of MEM outside the stored range, computed with the functions the meanings
use, reads as before, and so does every other component but RLEN, STATUS and DIAG.REFUSED. -/
def Obligations.StoringCommandsFrame : Prop :=
  (∀ (rs : VSrc) (addr : Word16) (s t : State), exec (.bvStore rs addr) s = .next t →
    FrameKept (.bvStore rs addr) s t ∧
    ∀ a, a < addr.toNat ∨ addr.toNat + (bytes (s.readSrc rs)).length ≤ a → t.mem.read a = s.mem.read a) ∧
  (∀ (src n dst : Word16) (s t : State), exec (.frmEncode src n dst) s = .next t →
    FrameKept (.frmEncode src n dst) s t ∧
    ∀ a, a < dst.toNat ∨ dst.toNat + (frame s.scheme (s.mem.readBytes src.toNat n.toNat)).length ≤ a →
      t.mem.read a = s.mem.read a)

/-- FRM_DECODE: MEM changes only in the payload's range, whose length RLEN reports, and only when ERR is 0; no V
register and no entry of tx_log changes. -/
def Obligations.FrmDecodeFrame : Prop :=
  ∀ (src n dst : Word16) (s t : State), exec (.frmDecode src n dst) s = .next t →
    FrameKept (.frmDecode src n dst) s t ∧
    (∀ a, a < dst.toNat ∨ dst.toNat + t.rlen.toNat ≤ a → t.mem.read a = s.mem.read a) ∧
    (t.err ≠ 0 → ∀ a, t.mem.read a = s.mem.read a)

/-- A byte of the wire changes the kept parser and nothing else. This is the model's choice: that a wire byte is a step
on a parser kept between bytes is log entry 5, that it writes neither STATUS nor DIAG is deduced in log entry 21;
10_state.md R37 allows such a parser and R51 speaks of commands only. -/
def Obligations.WireBytesFrame : Prop :=
  ∀ (i : Instr) (s t : State), isCommand i = false → exec i s = .next t →
    FrameKept i s t ∧ (∀ a, t.mem.read a = s.mem.read a) ∧ t = { s with parser := t.parser }
end

