-- ==== Sys2Proof/Laws/Bits.lean ====
section
/-! SUPPORT. The laws of the bit-vector functions (spec/40_bitvector.md R141 to R144) and the lengths of the byte
conversions (spec/20_memory.md R71, R72). -/

namespace Sys2Proof.Machine

theorem getBit_eq_getD (v : Bits) (i : Nat) : getBit v i = v.getD i false := rfl

/-- Beyond the end a bit reads 0 (40_bitvector.md R141). -/
theorem getBit_of_ge (v : Bits) (i : Nat) (h : v.length ≤ i) : getBit v i = false := by
  simp [getBit, List.getD_eq_getElem?_getD, List.getElem?_eq_none h]

/-- The length after a write (40_bitvector.md R142). -/
@[simp] theorem length_setBit (v : Bits) (i : Nat) (x : Bool) : (setBit v i x).length = max v.length (i + 1) := by
  induction i generalizing v with
  | zero => cases v <;> simp [setBit]
  | succ i ih => cases v <;> simp [setBit, ih]

/-- The bits after a write (40_bitvector.md R142, R144 (a)). -/
theorem getBit_setBit (v : Bits) (i : Nat) (x : Bool) (j : Nat) :
    getBit (setBit v i x) j = if j = i then x else getBit v j := by
  induction i generalizing v j with
  | zero => cases v <;> cases j <;> simp [setBit, getBit]
  | succ i ih =>
    cases v with
    | nil =>
      cases j with
      | zero => simp [setBit, getBit]
      | succ j => have := ih [] j; simp [setBit, getBit] at this ⊢; exact this
    | cons b v =>
      cases j with
      | zero => simp [setBit, getBit]
      | succ j => have := ih v j; simp [setBit, getBit] at this ⊢; exact this

/-- Inside the vector a write is the list update. -/
theorem setBit_eq_set (v : Bits) (i : Nat) (x : Bool) (h : i < v.length) : setBit v i x = v.set i x := by
  induction i generalizing v with
  | zero => cases v with
    | nil => simp at h
    | cons b v => rfl
  | succ i ih => cases v with
    | nil => simp at h
    | cons b v => simp only [setBit, List.set_cons_succ]; rw [ih v (by simpa using h)]

@[simp] theorem length_flipBit (v : Bits) (i : Nat) : (flipBit v i).length = max v.length (i + 1) := by
  simp [flipBit]

theorem getBit_flipBit (v : Bits) (i j : Nat) :
    getBit (flipBit v i) j = if j = i then !getBit v i else getBit v j := by
  simp [flipBit, getBit_setBit]

/-- The length after an XOR at an offset (40_bitvector.md R143): an empty operand changes nothing. -/
theorem length_xorAt (v w : Bits) (off : Nat) :
    (xorAt v w off).length = if w.length = 0 then v.length else max v.length (off + w.length) := by
  induction w generalizing v off with
  | nil => rfl
  | cons b w ih =>
    simp only [xorAt, ih, length_setBit, List.length_cons]
    split
    · simp_all
    · simp; omega

/-- The bits after an XOR at an offset (40_bitvector.md R143). -/
theorem getBit_xorAt (v w : Bits) (off i : Nat) :
    getBit (xorAt v w off) i =
      if off ≤ i ∧ i < off + w.length then (getBit v i ^^ getBit w (i - off)) else getBit v i := by
  induction w generalizing v off with
  | nil => simp only [xorAt, List.length_nil]; split <;> [omega; rfl]
  | cons b w ih =>
    simp only [xorAt, List.length_cons]
    rw [ih]
    by_cases hi : i = off
    · subst hi
      rw [if_neg (by omega), if_pos (by omega), getBit_setBit, if_pos rfl]
      simp [getBit]
    · by_cases h : off + 1 ≤ i ∧ i < off + 1 + w.length
      · have hs : i - off = (i - (off + 1)) + 1 := by omega
        rw [if_pos h, if_pos (by omega), getBit_setBit, if_neg hi, hs]
        simp [getBit]
      · rw [if_neg h, if_neg (by omega), getBit_setBit, if_neg hi]

/-- Two vectors of equal length and equal bits are equal. -/
theorem bits_ext {u v : Bits} (hl : u.length = v.length) (h : ∀ i, getBit u i = getBit v i) : u = v := by
  apply List.ext_getElem hl
  intro i h1 h2
  have := h i
  simpa [getBit, List.getD_eq_getElem?_getD, List.getElem?_eq_getElem h1, List.getElem?_eq_getElem h2] using this

@[simp] theorem length_byteBits (x : Byte) : (byteBits x).length = 8 := by simp [byteBits]

/-- Bit `b` of a byte's bits (20_memory.md R71). -/
theorem getBit_byteBits (x : Byte) (b : Nat) : getBit (byteBits x) b = x.getLsbD b := by
  by_cases h : b < 8
  · simp [getBit, byteBits, List.getD_eq_getElem?_getD, List.getElem?_range h]
  · rw [getBit_of_ge _ _ (by simp; omega), BitVec.getLsbD_of_ge _ _ (by omega)]

@[simp] theorem bits_nil : bits [] = [] := rfl
@[simp] theorem bits_cons (x : Byte) (B : List Byte) : bits (x :: B) = byteBits x ++ bits B := rfl

/-- `bits(B)` has 8 bits per byte (20_memory.md R71). -/
@[simp] theorem length_bits (B : List Byte) : (bits B).length = 8 * B.length := by
  induction B with
  | nil => rfl
  | cons x B ih => simp [ih]; omega

/-- `bytes(v)` has ceil(len/8) bytes (20_memory.md R72). -/
@[simp] theorem length_bytes (v : Bits) : (bytes v).length = (v.length + 7) / 8 := by simp [bytes]

/-- The number of a vector, bit by bit. -/
theorem testBit_bitsToNat (v : Bits) (i : Nat) : (bitsToNat v).testBit i = getBit v i := by
  induction v generalizing i with
  | nil => simp [bitsToNat, getBit]
  | cons b v ih =>
    have hmul : b.toNat + 2 * bitsToNat v = 2 * bitsToNat v + b.toNat := by omega
    cases i with
    | zero => cases b <;> simp [bitsToNat, getBit, Nat.testBit_zero]
    | succ i =>
      have hd : (b.toNat + 2 * bitsToNat v) / 2 = bitsToNat v := by cases b <;> simp; omega
      simp only [bitsToNat, Nat.testBit_succ, hd, ih]
      simp [getBit]

/-- A vector as the low bits of a word. -/
theorem getLsbD_ofNat_bitsToNat (w : Nat) (v : Bits) (i : Nat) (h : i < w) :
    (BitVec.ofNat w (bitsToNat v)).getLsbD i = getBit v i := by
  rw [BitVec.getLsbD_ofNat, testBit_bitsToNat]; simp [h]

end Sys2Proof.Machine
end

