-- ==== Sys2Proof/Laws/Encoding.lean ====
section
/-! SUPPORT. Cutting a command word into fields and packing it again (spec/30_encoding.md R100), and the fields as the
numbers of the word `op*2^56 + rd*2^53 + rs*2^50 + a*2^32 + b*2^16 + c`. -/

namespace Sys2Proof

/-- A slice of a word, read bit by bit. -/
theorem extract_getLsbD (w : CmdWord) (lo n i : Nat) (h : i < n) :
    (w.extractLsb' lo n).getLsbD i = w.getLsbD (lo + i) := by
  rw [BitVec.getLsbD_extractLsb']; simp [h]

/-- Packing then cutting gives the fields back. -/
@[simp] theorem fieldsOf_packFields (f : Fields) : fieldsOf (packFields f) = f := by
  obtain ⟨op, rd, rs, z, a, b, c⟩ := f
  simp only [fieldsOf, packFields, Fields.mk.injEq]
  refine ⟨?_, ?_, ?_, ?_, ?_, ?_, ?_⟩ <;>
  · ext i hi
    simp only [BitVec.getElem_extractLsb', BitVec.getLsbD_append]
    repeat' split
    all_goals first
      | omega
      | (rw [← BitVec.getLsbD_eq_getElem]; congr 1; omega)

/-- Cutting then packing gives the word back: the seven fields cover every bit. -/
@[simp] theorem packFields_fieldsOf (w : CmdWord) : packFields (fieldsOf w) = w := by
  apply BitVec.eq_of_getLsbD_eq
  intro i hi
  simp only [packFields, fieldsOf, BitVec.getLsbD_append]
  repeat' split
  all_goals (rw [extract_getLsbD _ _ _ _ (by omega)]; congr 1; omega)

/-- A word is determined by its fields. -/
theorem fieldsOf_injective {w w' : CmdWord} (h : fieldsOf w = fieldsOf w') : w = w' := by
  rw [← packFields_fieldsOf w, h, packFields_fieldsOf]

/-- The packed word as the number of 30_encoding.md R100. -/
theorem packFields_eq_wordOf (op : BitVec 8) (rd rs : BitVec 3) (a b c : Word16) :
    PortWord.cmd (packFields ⟨op, rd, rs, 0, a, b, c⟩) =
      Machine.wordOf op.toNat rd.toNat rs.toNat a.toNat b.toNat c.toNat := by
  simp only [Machine.wordOf, PortWord.cmd.injEq]
  apply BitVec.eq_of_toNat_eq
  have hz : (0 : BitVec 2).toNat = 0 := rfl
  simp only [packFields, BitVec.toNat_append, Nat.shiftLeft_eq, hz, BitVec.toNat_ofNat]
  have h1 := op.isLt; have h2 := rd.isLt; have h3 := rs.isLt
  have h4 := a.isLt; have h5 := b.isLt; have h6 := c.isLt
  rw [Nat.mul_comm op.toNat, ← Nat.two_pow_add_eq_or_of_lt (by omega), Nat.mul_comm _ (2 ^ 3),
    ← Nat.two_pow_add_eq_or_of_lt (by omega), Nat.or_zero, Nat.mul_comm _ (2 ^ 16),
    ← Nat.two_pow_add_eq_or_of_lt (by omega), Nat.mul_comm _ (2 ^ 16), ← Nat.two_pow_add_eq_or_of_lt (by omega),
    Nat.mul_comm _ (2 ^ 16), ← Nat.two_pow_add_eq_or_of_lt (by omega), Nat.mod_eq_of_lt (by omega)]
  omega

/-- A field as a number. -/
theorem Machine.fieldNat_eq (w : CmdWord) (lo n : Nat) : Machine.fieldNat w lo n = (w.extractLsb' lo n).toNat := by
  simp [Machine.fieldNat, BitVec.extractLsb'_toNat, Nat.shiftRight_eq_div_pow]

/-- The registers are NV in number, and their numbers are the specifiers of 30_encoding.md R101. -/
theorem VReg.index_injective : Function.Injective VReg.index := by
  intro r r'; cases r <;> cases r' <;> decide

theorem VReg.index_surjective : Function.Surjective VReg.index := by
  unfold Function.Surjective
  intro k
  match k with
  | 0 => exact ⟨.v0, rfl⟩
  | 1 => exact ⟨.v1, rfl⟩
  | 2 => exact ⟨.v2, rfl⟩
  | 3 => exact ⟨.v3, rfl⟩

@[simp] theorem VReg.toNat_spec (r : VReg) : r.spec.toNat = r.index := by cases r <;> rfl

/-- The destination specifiers are those of the four registers (30_encoding.md R101). -/
@[simp] theorem destReg_spec (r : VReg) : destReg r.spec = some r := by cases r <;> rfl

/-- The source specifiers are those of the four registers and VG (30_encoding.md R101). -/
@[simp] theorem srcReg_spec (r : VSrc) : srcReg r.spec = some r := by
  cases r with
  | reg r => cases r <;> rfl
  | vg => rfl

/-- What a destination specifier decodes to has that specifier. -/
theorem spec_of_destReg {x : BitVec 3} {r : VReg} (h : destReg x = some r) : r.spec = x := by
  revert x r; decide

/-- What a source specifier decodes to has that specifier. -/
theorem spec_of_srcReg {x : BitVec 3} {r : VSrc} (h : srcReg x = some r) : r.spec = x := by
  revert x; cases r with
  | reg r => cases r <;> decide
  | vg => decide

end Sys2Proof
end

