-- ==== Sys2Proof/Laws/Memory.lean ====
section
/-! SUPPORT. MEM: read after write, ranges of bytes, and that every operation keeps the canonical form and the address
bound. The read-after-write laws need no hypothesis on the memory. -/

namespace Sys2Proof.Machine

/-- Reading past the cells of an address that is filtered out gives the fill value there and the old value elsewhere. -/
theorem Memory.read_filter (m : Memory) (a b : Nat) :
    Memory.read (m.filter (·.1 ≠ a)) b = if b = a then Config.memFill else Memory.read m b := by
  induction m with
  | nil => simp [Memory.read]
  | cons c m ih =>
    by_cases hc : c.1 = a
    · rw [List.filter_cons_of_neg (by simp [hc]), ih]
      by_cases hb : b = a
      · simp [hb]
      · have : c.1 ≠ b := fun h => hb (by omega)
        simp [hb, Memory.read, this]
    · rw [List.filter_cons_of_pos (by simp [hc])]
      by_cases hb : c.1 = b
      · have : b ≠ a := fun h => hc (by omega)
        simp [Memory.read, hb, this]
      · simp only [Memory.read, hb, if_false]
        exact ih

/-- Inserting a cell whose address is not listed yet. -/
theorem Memory.read_insertCell (m : Memory) (c : Host.Cell) (b : Nat) (h : ∀ d ∈ m, d.1 ≠ c.1) :
    Memory.read (Memory.insertCell c m) b = if b = c.1 then c.2 else Memory.read m b := by
  induction m with
  | nil => simp [Memory.insertCell, Memory.read, eq_comm]
  | cons d m ih =>
    have hd : d.1 ≠ c.1 := h d (by simp)
    have ih := ih fun e he => h e (by simp [he])
    simp only [Memory.insertCell]
    split
    · by_cases hb : b = c.1 <;> simp [Memory.read, hb, eq_comm]
    · simp only [Memory.read, ih]
      by_cases hb : b = c.1
      · simp [hb, hd]
      · simp [hb]

/-- Read after write: the address written gives the value, every other address what it gave before. -/
theorem Memory.read_write (m : Memory) (a : Nat) (x : Byte) (b : Nat) :
    (m.write a x).read b = if b = a then x else m.read b := by
  unfold Memory.write
  split
  · next hx => rw [Memory.read_filter, hx]
  · rw [Memory.read_insertCell]
    · by_cases hb : b = a
      · simp [hb]
      · simp only [hb, if_false]
        rw [Memory.read_filter]; simp [hb]
    · intro d hd; simpa using (List.mem_filter.mp hd).2

@[simp] theorem Memory.read_write_same (m : Memory) (a : Nat) (x : Byte) : (m.write a x).read a = x := by
  simp [Memory.read_write]

theorem Memory.read_write_other (m : Memory) (a b : Nat) (x : Byte) (h : b ≠ a) :
    (m.write a x).read b = m.read b := by
  simp [Memory.read_write, h]

@[simp] theorem Memory.length_readBytes (m : Memory) (addr n : Nat) : (m.readBytes addr n).length = n := by
  induction n generalizing addr with
  | zero => rfl
  | succ n ih => simp [Memory.readBytes, ih]

/-- Byte `k` of a range read is the byte at `addr + k`. -/
theorem Memory.getElem?_readBytes (m : Memory) (addr n k : Nat) (h : k < n) :
    (m.readBytes addr n)[k]? = some (m.read (addr + k)) := by
  induction n generalizing addr k with
  | zero => omega
  | succ n ih =>
    cases k with
    | zero => simp [Memory.readBytes]
    | succ k => simp only [Memory.readBytes, List.getElem?_cons_succ]; rw [ih _ _ (by omega)]; congr 2; omega

/-- A range of bytes written: byte `k` of the list at `addr + k`, every other address as before. -/
theorem Memory.read_writeBytes (m : Memory) (addr : Nat) (B : List Byte) (b : Nat) :
    (m.writeBytes addr B).read b =
      if addr ≤ b ∧ b < addr + B.length then B.getD (b - addr) 0 else m.read b := by
  induction B generalizing m addr with
  | nil => simp only [Memory.writeBytes, List.length_nil]; split <;> [omega; rfl]
  | cons x B ih =>
    simp only [Memory.writeBytes, List.length_cons]
    rw [ih]
    by_cases h1 : addr + 1 ≤ b ∧ b < addr + 1 + B.length
    · have h2 : addr ≤ b ∧ b < addr + (B.length + 1) := by omega
      have h3 : b - addr = (b - (addr + 1)) + 1 := by omega
      simp [h1, h2, h3]
    · by_cases hb : b = addr
      · simp [hb]
      · have h2 : ¬ (addr ≤ b ∧ b < addr + (B.length + 1)) := by omega
        rw [if_neg h1, if_neg h2, Memory.read_write_other _ _ _ _ hb]

theorem Memory.read_writeBytes_outside (m : Memory) (addr : Nat) (B : List Byte) (b : Nat)
    (h : b < addr ∨ addr + B.length ≤ b) : (m.writeBytes addr B).read b = m.read b := by
  rw [Memory.read_writeBytes, if_neg (by omega)]

theorem Memory.read_writeBytes_inside (m : Memory) (addr : Nat) (B : List Byte) (k : Nat) (h : k < B.length) :
    (m.writeBytes addr B).read (addr + k) = B.getD k 0 := by
  rw [Memory.read_writeBytes, if_pos (by omega)]; congr 1; omega

/-- Reading back the whole range that was written. -/
theorem Memory.readBytes_writeBytes (m : Memory) (addr : Nat) (B : List Byte) :
    (m.writeBytes addr B).readBytes addr B.length = B := by
  apply List.ext_getElem?
  intro k
  by_cases h : k < B.length
  · rw [Memory.getElem?_readBytes _ _ _ _ h, Memory.read_writeBytes_inside _ _ _ _ h]
    simp [List.getD_eq_getElem?_getD, List.getElem?_eq_getElem h]
  · rw [List.getElem?_eq_none (by simp; omega), List.getElem?_eq_none (by omega)]

theorem Memory.mem_insertCell (c d : Host.Cell) (m : Memory) :
    d ∈ Memory.insertCell c m ↔ d = c ∨ d ∈ m := by
  induction m with
  | nil => simp [Memory.insertCell]
  | cons e m ih =>
    simp only [Memory.insertCell]
    split
    · simp
    · simp only [List.mem_cons, ih]; tauto

theorem Memory.pairwise_insertCell (c : Host.Cell) (m : Memory)
    (hm : m.Pairwise fun d e => d.1 < e.1) (hc : ∀ d ∈ m, d.1 ≠ c.1) :
    (Memory.insertCell c m).Pairwise fun d e => d.1 < e.1 := by
  induction m with
  | nil => simp [Memory.insertCell]
  | cons e m ih =>
    have hp := List.pairwise_cons.mp hm
    simp only [Memory.insertCell]
    split
    · next hlt =>
      refine List.pairwise_cons.mpr ⟨fun d hd => ?_, hm⟩
      rcases List.mem_cons.mp hd with rfl | hd
      · exact hlt
      · exact hlt.trans (hp.1 d hd)
    · next hge =>
      have hne := hc e (by simp)
      refine List.pairwise_cons.mpr ⟨fun d hd => ?_, ih hp.2 fun d hd => hc d (by simp [hd])⟩
      rcases (Memory.mem_insertCell c d m).mp hd with rfl | hd
      · omega
      · exact hp.1 d hd

/-- A write keeps the canonical form. -/
theorem Memory.wf_write (m : Memory) (a : Nat) (x : Byte) (h : m.wf) : (m.write a x).wf := by
  have hf : Memory.wf (m.filter (·.1 ≠ a)) :=
    ⟨h.1.filter _, fun c hc => h.2 c (List.mem_filter.mp hc).1⟩
  unfold Memory.write
  split
  · exact hf
  · next hx =>
    refine ⟨Memory.pairwise_insertCell _ _ hf.1 fun d hd => by simpa using (List.mem_filter.mp hd).2, fun c hc => ?_⟩
    rcases (Memory.mem_insertCell _ c _).mp hc with rfl | hc
    · exact hx
    · exact hf.2 c hc

/-- Writing a range keeps the canonical form. -/
theorem Memory.wf_writeBytes (m : Memory) (addr : Nat) (B : List Byte) (h : m.wf) : (m.writeBytes addr B).wf := by
  induction B generalizing m addr with
  | nil => exact h
  | cons x B ih => exact ih _ _ (Memory.wf_write m addr x h)

/-- A write to an address that exists keeps every listed address inside MEM. -/
theorem Memory.inRange_write (m : Memory) (a : Nat) (x : Byte) (h : m.inRange) (ha : a < Config.memSize) :
    (m.write a x).inRange := by
  unfold Memory.write
  split
  · exact fun c hc => h c (List.mem_filter.mp hc).1
  · intro c hc
    rcases (Memory.mem_insertCell _ c _).mp hc with rfl | hc
    · exact ha
    · exact h c (List.mem_filter.mp hc).1

/-- Writing a range that lies in MEM keeps every listed address inside MEM. -/
theorem Memory.inRange_writeBytes (m : Memory) (addr : Nat) (B : List Byte) (h : m.inRange)
    (hB : addr + B.length ≤ Config.memSize) : (m.writeBytes addr B).inRange := by
  induction B generalizing m addr with
  | nil => exact h
  | cons x B ih =>
    simp only [List.length_cons] at hB
    exact ih _ _ (Memory.inRange_write m addr x h (by omega)) (by omega)

/-- Reset's MEM has the canonical form. -/
theorem Memory.wf_reset : State.reset.mem.wf := by
  constructor <;> simp [State.reset, State.resetFor]

/-- MEM_SIZE as a number (00_scope.md R10). -/
theorem Config.memSize_eq : Config.memSize = 65536 := rfl

/-- Every address a command can name exists (20_memory.md R70). -/
theorem addr_lt_memSize (a : Addr) : a.toNat < Config.memSize := a.isLt

/-- The same with the number, for arithmetic. -/
theorem addr_lt (a : Addr) : a.toNat < 65536 := a.isLt

/-- `inMem` is the range check of 20_memory.md R74. -/
@[simp] theorem inMem_iff (addr n : Nat) : inMem addr n = true ↔ addr + n ≤ 65536 :=
  decide_eq_true_iff

@[simp] theorem inMem_false_iff (addr n : Nat) : inMem addr n = false ↔ 65536 < addr + n :=
  decide_eq_false_iff_not.trans Nat.not_le

end Sys2Proof.Machine
end

