-- ==== Sys2Proof/Laws/State.lean ====
section
/-! SUPPORT. Reading fields after the named updates of the state: one lemma per field per update, and what each shared
operation leaves behind. -/

namespace Sys2Proof.Machine

/-- Reading a register back after writing it. -/
@[simp] theorem State.readV_writeV_same (s : State) (r : VReg) (v : Bits) : (s.writeV r v).readV r = v := by
  cases r <;> rfl

/-- Writing a register leaves the others. -/
theorem State.readV_writeV_other (s : State) (r r' : VReg) (v : Bits) (h : r' ≠ r) :
    (s.writeV r v).readV r' = s.readV r' := by
  cases r <;> cases r' <;> first | rfl | exact absurd rfl h

/-- Both cases of reading after a write at once. -/
theorem State.readV_writeV (s : State) (r r' : VReg) (v : Bits) :
    (s.writeV r v).readV r' = if r' = r then v else s.readV r' := by
  cases r <;> cases r' <;> rfl

/-- Writing a register's own value back changes nothing. -/
@[simp] theorem State.writeV_readV (s : State) (r : VReg) : s.writeV r (s.readV r) = s := by cases r <;> rfl

/-- The second of two writes to a register wins. -/
@[simp] theorem State.writeV_writeV (s : State) (r : VReg) (v w : Bits) :
    (s.writeV r v).writeV r w = s.writeV r w := by cases r <;> rfl

@[simp] theorem State.writeV_cfg (s : State) (r : VReg) (v : Bits) : (s.writeV r v).cfg = s.cfg := by cases r <;> rfl
@[simp] theorem State.writeV_status (s : State) (r : VReg) (v : Bits) : (s.writeV r v).status = s.status := by
  cases r <;> rfl
@[simp] theorem State.writeV_res (s : State) (r : VReg) (v : Bits) : (s.writeV r v).res = s.res := by cases r <;> rfl
@[simp] theorem State.writeV_rlen (s : State) (r : VReg) (v : Bits) : (s.writeV r v).rlen = s.rlen := by
  cases r <;> rfl
@[simp] theorem State.writeV_synd (s : State) (r : VReg) (v : Bits) : (s.writeV r v).synd = s.synd := by
  cases r <;> rfl
@[simp] theorem State.writeV_diag (s : State) (r : VReg) (v : Bits) : (s.writeV r v).diag = s.diag := by
  cases r <;> rfl
@[simp] theorem State.writeV_txLog (s : State) (r : VReg) (v : Bits) : (s.writeV r v).txLog = s.txLog := by
  cases r <;> rfl
@[simp] theorem State.writeV_mem (s : State) (r : VReg) (v : Bits) : (s.writeV r v).mem = s.mem := by cases r <;> rfl
@[simp] theorem State.writeV_parser (s : State) (r : VReg) (v : Bits) : (s.writeV r v).parser = s.parser := by
  cases r <;> rfl
@[simp] theorem State.writeV_host (s : State) (r : VReg) (v : Bits) : (s.writeV r v).host = s.host := by
  cases r <;> rfl
@[simp] theorem State.writeV_scheme (s : State) (r : VReg) (v : Bits) : (s.writeV r v).scheme = s.scheme := by
  cases r <;> rfl

/-- The bank is read through the four registers alone. -/
theorem State.readV_congr {s t : State} (h0 : t.v0 = s.v0) (h1 : t.v1 = s.v1) (h2 : t.v2 = s.v2) (h3 : t.v3 = s.v3)
    (r : VReg) : t.readV r = s.readV r := by
  cases r <;> assumption

/-- A source is VG or a register of the bank. -/
@[simp] theorem State.readSrc_reg (s : State) (r : VReg) : s.readSrc (.reg r) = s.readV r := rfl
@[simp] theorem State.readSrc_vg (s : State) : s.readSrc .vg = Config.gen := rfl

/-- The scheme is read from CFG alone. -/
theorem State.scheme_congr {s t : State} (h : t.cfg = s.cfg) : t.scheme = s.scheme := by
  simp [State.scheme, h]

/-- The strap is what CFG holds after reset. -/
@[simp] theorem State.scheme_resetFor (sc : Scheme) (m : Memory) : (State.resetFor sc m).scheme = sc := by
  cases sc <;> simp [State.scheme, State.resetFor, cfgOf]

@[simp] theorem State.resetFor_readV (sc : Scheme) (m : Memory) (r : VReg) : (State.resetFor sc m).readV r = [] := by
  cases r <;> rfl
@[simp] theorem State.resetFor_mem (sc : Scheme) (m : Memory) : (State.resetFor sc m).mem = m := rfl
@[simp] theorem State.resetFor_cfg (sc : Scheme) (m : Memory) : (State.resetFor sc m).cfg = cfgOf sc := rfl

/-- STATUS of a success without a correction is 0. -/
@[simp] theorem statusWord_zero : statusWord 0 .noError = 0 := rfl

/-- The fields of the STATUS word of a code below 16. -/
theorem statusWord_fields (e : Nat) (cls : HamClass) (h : e < 16) :
    ((statusWord e cls).extractLsb' 0 4).toNat = e ∧ ((statusWord e cls).extractLsb' 4 2).toNat = cls.code := by
  cases cls <;> simp [statusWord, HamClass.code, BitVec.extractLsb'_toNat, Nat.shiftRight_eq_div_pow] <;> omega

theorem ErrKind.code_lt (k : ErrKind) : k.code < 16 := by cases k <;> decide
theorem RefuseCode.code_lt (c : RefuseCode) : c.code < 16 := by cases c <;> decide

/-- What `refuse` leaves behind (60_exceptions.md R296). -/
theorem refuse_eq (c : RefuseCode) (s : State) :
    refuse c s = .next { s with status := BitVec.ofNat 16 c.code, diag := s.diag ||| 0x40 } := rfl

/-- What `fail` leaves behind (60_exceptions.md R297). -/
theorem fail_eq (k : ErrKind) (s : State) :
    fail k s = .next { s with
      status := BitVec.ofNat 16 k.code, diag := s.diag ||| BitVec.ofNat 8 (2 ^ k.diagBit) } := rfl

/-- What `succeed` leaves behind (10_state.md R52). -/
theorem succeed_eq (s : State) : succeed s = .next { s with status := 0 } := rfl

/-- What `succeedHam` leaves behind (42_hamming.md R208). -/
theorem succeedHam_eq (syn : Byte) (cls : HamClass) (s : State) :
    succeedHam syn cls s = .next { s with
      synd := syn
      status := BitVec.ofNat 16 (16 * cls.code)
      diag := if syn = 0 then s.diag else s.diag ||| 0x04 } := by
  simp [succeedHam, statusWord, orDiag, diagHamSyndrome]

/-- OR-ing a DIAG bit in: that bit becomes 1, the others stay. -/
theorem orDiag_getLsbD (d : Byte) (k j : Nat) (hk : k < 8) :
    (orDiag d k).getLsbD j = (d.getLsbD j || decide (j = k)) := by
  by_cases hj : j < 8
  · rw [orDiag, BitVec.getLsbD_or, BitVec.getLsbD_ofNat, Nat.testBit_two_pow]
    simp only [hj, decide_true, Bool.true_and, eq_comm]
  · have hne : j ≠ k := by omega
    simp [BitVec.getLsbD_of_ge _ j (by omega : 8 ≤ j), hne]

end Sys2Proof.Machine
end

