-- ==== Sys2Proof/Laws/Units.lean ====
section
/-! SUPPORT. Lengths and small laws of the CRC, Hamming and framing functions. -/

namespace Sys2Proof.Machine

@[simp] theorem length_gen : Config.gen.length = 17 := rfl

/-- The division loop keeps the length while the window fits (41_crc.md R171). -/
theorem length_polydivLoop (g : Bits) (k i : Nat) (D : Bits) (h : i + k + g.length ≤ D.length + 1) :
    (polydivLoop g k i D).length = D.length := by
  induction k generalizing i D with
  | zero => rfl
  | succ k ih =>
    have hx : (if getBit D i then xorAt D g i else D).length = D.length := by
      split
      · rw [length_xorAt]; split <;> omega
      · rfl
    rw [polydivLoop, ih _ _ (by rw [hx]; omega), hx]

/-- Division keeps the length (41_crc.md R171), for any nonempty generator. -/
@[simp] theorem length_polydivBy (g D : Bits) : (polydivBy g D).length = D.length := by
  unfold polydivBy
  by_cases h : g.length ≤ D.length + 1
  · exact length_polydivLoop g _ 0 D (by omega)
  · have : D.length + 1 - g.length = 0 := by omega
    rw [this]; rfl

@[simp] theorem length_polydiv (D : Bits) : (polydiv D).length = D.length := length_polydivBy _ D

/-- The remainder has `len(g) - 1` bits (41_crc.md R172). -/
@[simp] theorem length_crcRemBy (g v : Bits) : (crcRemBy g v).length = g.length - 1 := by
  simp [crcRemBy]

@[simp] theorem length_crcRem (v : Bits) : (crcRem v).length = 16 := length_crcRemBy _ v

@[simp] theorem length_crcAppend (v : Bits) : (crcAppend v).length = v.length + 16 := by
  simp [crcAppend, crcAppendBy]

/-- Dividing a vector shorter than the generator leaves it as it is (41_crc.md R171). -/
theorem polydivBy_of_short (g D : Bits) (h : D.length < g.length) : polydivBy g D = D := by
  have : D.length + 1 - g.length = 0 := by omega
  rw [polydivBy, this]; rfl

/-- Correction keeps the length (42_hamming.md R208). -/
@[simp] theorem length_hamCorrect (v : Bits) (par : Byte) : (hamCorrect v par).1.length = v.length := by
  simp only [hamCorrect]
  split
  · rfl
  split
  · rfl
  split
  · next h => simp only [length_flipBit]; omega
  · rfl

/-- The syndrome is the recomputed parity XOR the received one (42_hamming.md R205). -/
theorem hamCorrect_syndrome (v : Bits) (par : Byte) : (hamCorrect v par).2.1 = hamParity v ^^^ par := by
  simp only [hamCorrect]
  split
  · rfl
  split
  · rfl
  split <;> rfl

@[simp] theorem esc_nil : esc [] = [] := rfl
@[simp] theorem esc_cons (x : Byte) (P : List Byte) :
    esc (x :: P) = (if isTag x then [Config.escTag, x] else [x]) ++ esc P := rfl

/-- Escaping adds one byte per tag byte, so at most doubles the length (43_framing.md R232). -/
theorem length_esc (P : List Byte) : P.length ≤ (esc P).length ∧ (esc P).length ≤ 2 * P.length := by
  induction P with
  | nil => simp
  | cons x P ih => simp only [esc_cons, List.length_append, List.length_cons]; split <;> simp <;> omega

@[simp] theorem length_trailer (sc : Scheme) (P : List Byte) : (trailer sc P).length = Config.trailerLen sc := by
  cases sc <;> simp [trailer, Config.trailerLen]

/-- The length of a frame (43_framing.md R234). -/
theorem length_frame (sc : Scheme) (P : List Byte) :
    (frame sc P).length = (esc P).length + Config.trailerLen sc + 2 := by
  simp [frame]; omega

/-- A frame of a chunk of 1 to 8 bytes has 4 to 20 bytes (30_encoding.md R110). -/
theorem length_frame_bounds (sc : Scheme) (P : List Byte) (h1 : 1 ≤ P.length) (h8 : P.length ≤ 8) :
    4 ≤ (frame sc P).length ∧ (frame sc P).length ≤ 20 := by
  have := length_esc P
  cases sc <;> simp only [length_frame, Config.trailerLen] <;> omega

@[simp] theorem length_chunks (M : List Byte) : (chunks M).length = chunkCount M.length := by simp [chunks]

/-- Every chunk has 1 to 8 bytes (43_framing.md R235). -/
theorem length_of_mem_chunks (M P : List Byte) (h : P ∈ chunks M) : 1 ≤ P.length ∧ P.length ≤ 8 := by
  simp only [chunks, List.mem_map, List.mem_range, chunkCount, Config.maxChunk] at h
  obtain ⟨c, hc, rfl⟩ := h
  simp only [List.length_take, List.length_drop]
  omega

end Sys2Proof.Machine
end

