-- ==== Sys2Proof/Laws/Exec.lean ====
section
/-! SUPPORT. What the shared operations of the meanings and the step can do, each said once: the end of a correction,
the end of FRM_DECODE, a wire byte, the host's moves, the step. -/

namespace Sys2Proof.Machine

/-- Everything a finished correction writes (42_hamming.md R208, R210). -/
theorem finishCorrection_eq (rd : VReg) (r : Bits × Byte × HamClass) (s : State) :
    finishCorrection rd r s = .next { s.writeV rd r.1 with
      synd := r.2.1
      res := r.2.1.setWidth 16
      status := BitVec.ofNat 16 (16 * r.2.2.code)
      diag := if r.2.1 = 0 then s.diag else s.diag ||| 0x04 } := by
  rw [finishCorrection, succeedHam_eq]; simp

/-- Everything the delivery of a payload writes, without a correction and with one (43_framing.md R243 step 8). -/
theorem deliverPayload_none (dst : Addr) (P : List Byte) (consumed : Nat) (s : State) :
    deliverPayload dst P consumed none s = .next { s with
      mem := s.mem.writeBytes dst.toNat P, rlen := count16 P.length, res := count16 consumed, status := 0 } := rfl

theorem deliverPayload_some (dst : Addr) (P : List Byte) (consumed : Nat) (syn : Byte) (cls : HamClass) (s : State) :
    deliverPayload dst P consumed (some (syn, cls)) s = .next { s with
      mem := s.mem.writeBytes dst.toNat P, rlen := count16 P.length, res := count16 consumed
      synd := syn
      status := BitVec.ofNat 16 (16 * cls.code)
      diag := if syn = 0 then s.diag else s.diag ||| 0x04 } := by
  simp only [deliverPayload, succeedHam_eq]

/-- The codec step without a correction comes from CRC, with one from HAM (43_framing.md R240). -/
theorem checkCopy_payload {sc : Scheme} {copy P : List Byte} {ham : Option (Byte × HamClass)}
    (h : checkCopy sc copy = .payload P ham) :
    (sc = .crc ∧ crcOk (bits copy) = true ∧ P = copy.take (copy.length - 2) ∧ ham = none) ∨
    (sc = .ham ∧ P = bytes (hamCorrect (bits (copy.take (copy.length - 1))) (copy.getLastD 0)).1 ∧
      ham = some (hamCorrect (bits (copy.take (copy.length - 1))) (copy.getLastD 0)).2) := by
  cases sc with
  | crc =>
    simp only [checkCopy] at h
    split at h
    · next hok => cases h; exact .inl ⟨rfl, hok, rfl, rfl⟩
    · cases h
  | ham => simp only [checkCopy, CodecResult.payload.injEq] at h; exact .inr ⟨rfl, h.1.symm, h.2.symm⟩

/-- A payload is shorter than its copy (43_framing.md R240). -/
theorem checkCopy_length {sc : Scheme} {copy P : List Byte} {ham : Option (Byte × HamClass)}
    (h : checkCopy sc copy = .payload P ham) : P.length ≤ copy.length := by
  rcases checkCopy_payload h with ⟨-, -, rfl, -⟩ | ⟨-, rfl, -⟩
  · simp
  · simp; omega

/-- Everything steps 4 to 8 of FRM_DECODE can do, in order (43_framing.md R243). -/
theorem decodeCopy_cases (dst : Addr) (copy : List Byte) (consumed : Nat) (s : State) :
    (copy.length < Config.trailerLen s.scheme ∧
      decodeCopy dst copy consumed s = fail .tooShort { s with res := count16 consumed, rlen := 0 }) ∨
    (s.scheme = .ham ∧ 247 < 8 * (copy.length - 1) ∧ decodeCopy dst copy consumed s = refuse .hamRange s) ∨
    (checkCopy s.scheme copy = .corrupt ∧
      decodeCopy dst copy consumed s = fail .crcMismatch { s with res := count16 consumed, rlen := 0 }) ∨
    ∃ P ham, checkCopy s.scheme copy = .payload P ham ∧
      ((65536 < dst.toNat + P.length ∧ decodeCopy dst copy consumed s = refuse .addrRange s) ∨
       (dst.toNat + P.length ≤ 65536 ∧ decodeCopy dst copy consumed s = deliverPayload dst P consumed ham s)) := by
  unfold decodeCopy
  split
  · next h => exact .inl ⟨h, rfl⟩
  split
  · next h => exact .inr (.inl ⟨h.1, h.2, rfl⟩)
  cases hc : checkCopy s.scheme copy with
  | corrupt => exact .inr (.inr (.inl ⟨rfl, rfl⟩))
  | payload P ham =>
    refine .inr (.inr (.inr ⟨P, ham, rfl, ?_⟩))
    by_cases hm : dst.toNat + P.length ≤ 65536
    · exact .inr ⟨hm, by simp [(inMem_iff _ _).mpr hm]⟩
    · have hm' : 65536 < dst.toNat + P.length := by omega
      exact .inl ⟨hm', by simp [(inMem_false_iff _ _).mpr hm']⟩

/-- A step with no pending move. -/
theorem step_nil (s : State) (h : s.host = []) : step s = .next s := by simp [step, h]

/-- A step takes the oldest move off the list and carries it out. -/
theorem step_cons (s : State) (m : HostMove) (rest : List HostMove) (h : s.host = m :: rest) :
    step s = runMove m { s with host := rest } := by simp [step, h]

/-- A presented word that decodes is run. -/
theorem runMove_present (p : PortWord) (i : Instr) (s : State) (h : decode p = some i) :
    runMove (.present p) s = exec i s := by simp [runMove, h]

/-- A presented word that does not decode is refused. -/
theorem runMove_illegal (p : PortWord) (s : State) (h : decode p = none) :
    runMove (.present p) s = refuse .illegalCommand s := by simp [runMove, h, illegalWord]

/-- The step on the state the host builds to run one instruction of the opcode table. -/
theorem step_withFetchWord (s : State) (nbits w : Nat) (i : Instr) (h : decodeTableWord nbits w = some i) :
    step (s.withFetchWord nbits w) = exec i s := by
  rw [step_cons _ (.present (portWordOf nbits w)) s.host rfl, runMove_present _ i _ h]
  rfl

end Sys2Proof.Machine
end

