-- ==== Sys2Proof/Laws/PerInstr.lean ====
section
/-! SUPPORT. Per-instruction lemmas: the family `EncodedFields` says, for each instruction, which fields its encoded
command word has when it is cut again (spec/30_encoding.md R100, R104); a byte class has no command word. -/

namespace Sys2Proof.Laws.EncodedFields

/-- The fields of 30_encoding.md R104 for a command; none for a byte class of the wire. -/
def fields : Instr → Option Fields
  | .nop => some ⟨0x00, 0, 0, 0, 0, 0, 0⟩
  | .diagClr => some ⟨0x01, 0, 0, 0, 0, 0, 0⟩
  | .bvClr rd => some ⟨0x10, rd.spec, 0, 0, 0, 0, 0⟩
  | .bvGet rs idx => some ⟨0x11, 0, rs.spec, 0, idx, 0, 0⟩
  | .bvSet rd idx bit => some ⟨0x12, rd.spec, 0, 0, idx, if bit then 1 else 0, 0⟩
  | .bvLoad rd addr n => some ⟨0x13, rd.spec, 0, 0, addr, n, 0⟩
  | .bvStore rs addr => some ⟨0x14, 0, rs.spec, 0, addr, 0, 0⟩
  | .bvXor rd rs off => some ⟨0x15, rd.spec, rs.spec, 0, off, 0, 0⟩
  | .crcDiv rd rs => some ⟨0x20, rd.spec, rs.spec, 0, 0, 0, 0⟩
  | .crcRem rs => some ⟨0x21, 0, rs.spec, 0, 0, 0, 0⟩
  | .crcAppend rd rs => some ⟨0x22, rd.spec, rs.spec, 0, 0, 0, 0⟩
  | .crcVerify rs => some ⟨0x23, 0, rs.spec, 0, 0, 0, 0⟩
  | .hamParity rs => some ⟨0x30, 0, rs.spec, 0, 0, 0, 0⟩
  | .hamCorrect rd par => some ⟨0x31, rd.spec, 0, 0, par.setWidth 16, 0, 0⟩
  | .hamAppend rd rs => some ⟨0x32, rd.spec, rs.spec, 0, 0, 0, 0⟩
  | .hamVerify rd rs => some ⟨0x33, rd.spec, rs.spec, 0, 0, 0, 0⟩
  | .frmEncode src n dst => some ⟨0x40, 0, 0, 0, src, n, dst⟩
  | .frmComplete src n => some ⟨0x41, 0, 0, 0, src, n, 0⟩
  | .frmDecode src n dst => some ⟨0x42, 0, 0, 0, src, n, dst⟩
  | .frmSend src n => some ⟨0x43, 0, 0, 0, src, n, 0⟩
  | .wireStart | .wireStop | .wireEsc | .wireData _ => none

/-- The encoded word of a command, cut into fields, has the fields of the opcode map. -/
def Statement (i : Instr) : Prop := ∀ w, encode i = .cmd w → fields i = some (fieldsOf w)

/-- The one proof behind every command's lemma. -/
theorem of_pack {i : Instr} {f : Fields} (he : encode i = .cmd (packFields f)) (hf : fields i = some f) :
    Statement i := by
  intro w hw
  rw [he] at hw
  cases hw
  simpa using hf

theorem nop : Statement .nop := of_pack rfl rfl
theorem diagClr : Statement .diagClr := of_pack rfl rfl
theorem bvClr (rd : VReg) : Statement (.bvClr rd) := of_pack rfl rfl
theorem bvGet (rs : VSrc) (idx : Word16) : Statement (.bvGet rs idx) := of_pack rfl rfl
theorem bvSet (rd : VReg) (idx : Word16) (bit : Bool) : Statement (.bvSet rd idx bit) := of_pack rfl rfl
theorem bvLoad (rd : VReg) (addr n : Addr) : Statement (.bvLoad rd addr n) := of_pack rfl rfl
theorem bvStore (rs : VSrc) (addr : Addr) : Statement (.bvStore rs addr) := of_pack rfl rfl
theorem bvXor (rd : VReg) (rs : VSrc) (off : Word16) : Statement (.bvXor rd rs off) := of_pack rfl rfl
theorem crcDiv (rd : VReg) (rs : VSrc) : Statement (.crcDiv rd rs) := of_pack rfl rfl
theorem crcRem (rs : VSrc) : Statement (.crcRem rs) := of_pack rfl rfl
theorem crcAppend (rd : VReg) (rs : VSrc) : Statement (.crcAppend rd rs) := of_pack rfl rfl
theorem crcVerify (rs : VSrc) : Statement (.crcVerify rs) := of_pack rfl rfl
theorem hamParity (rs : VSrc) : Statement (.hamParity rs) := of_pack rfl rfl
theorem hamCorrect (rd : VReg) (par : Byte) : Statement (.hamCorrect rd par) := of_pack rfl rfl
theorem hamAppend (rd : VReg) (rs : VSrc) : Statement (.hamAppend rd rs) := of_pack rfl rfl
theorem hamVerify (rd : VReg) (rs : VSrc) : Statement (.hamVerify rd rs) := of_pack rfl rfl
theorem frmEncode (src n dst : Addr) : Statement (.frmEncode src n dst) := of_pack rfl rfl
theorem frmComplete (src n : Addr) : Statement (.frmComplete src n) := of_pack rfl rfl
theorem frmDecode (src n dst : Addr) : Statement (.frmDecode src n dst) := of_pack rfl rfl
theorem frmSend (src n : Addr) : Statement (.frmSend src n) := of_pack rfl rfl
theorem wireStart : Statement .wireStart := nofun
theorem wireStop : Statement .wireStop := nofun
theorem wireEsc : Statement .wireEsc := nofun
theorem wireData (x : Byte) : Statement (.wireData x) := nofun

end Sys2Proof.Laws.EncodedFields
end

