-- ==== Sys2Proof/Machine/Asm.lean ====
section
/-! DEFINITION. The text form of commands (spec/30_encoding.md R120): `MNEMONIC operand, operand, ...`, one command a
line, registers `V0` to `V3` and `VG`, numbers decimal or `0x` hexadecimal, `;` starts a comment, and the
pseudo-commands of R121. A text is a list of characters. Used by no step (log entry 14). -/

namespace Sys2Proof.Machine

/-- An operand as written: a register or a number. -/
inductive AsmOperand where
  | register (r : VSrc)
  | number (n : Nat)
  deriving DecidableEq, Repr

/-- White space inside a line. -/
def isBlank (c : Char) : Bool := c == ' ' || c == '\t' || c == '\r'

/-- Without white space at both ends. -/
def trimText (l : List Char) : List Char := ((l.dropWhile isBlank).reverse.dropWhile isBlank).reverse

/-- The pieces between the separators: one more than there are separators. -/
def splitText (sep : Char) : List Char → List (List Char)
  | [] => [[]]
  | c :: l =>
    match splitText sep l with
    | [] => [[]]
    | p :: ps => if c == sep then [] :: p :: ps else (c :: p) :: ps

/-- The value of a digit in a base up to 16. -/
def digitValue (base : Nat) (c : Char) : Option Nat :=
  let v := if '0' ≤ c ∧ c ≤ '9' then c.toNat - 48
    else if 'a' ≤ c ∧ c ≤ 'f' then c.toNat - 87
    else if 'A' ≤ c ∧ c ≤ 'F' then c.toNat - 55
    else 16
  if v < base then some v else none

/-- A numeral, most significant digit first, on top of the value read so far. -/
def readDigits (base : Nat) : Nat → List Char → Option Nat
  | acc, [] => some acc
  | acc, c :: l =>
    match digitValue base c with
    | some v => readDigits base (acc * base + v) l
    | none => none

/-- A number: decimal or `0x` hexadecimal, at least one digit (30_encoding.md R120). -/
def readNumber : List Char → Option Nat
  | [] => none
  | '0' :: 'x' :: c :: l => readDigits 16 0 (c :: l)
  | c :: l => readDigits 10 0 (c :: l)

/-- An operand (30_encoding.md R120). -/
def readOperand (l : List Char) : Option AsmOperand :=
  match l with
  | ['V', '0'] => some (.register (.reg .v0))
  | ['V', '1'] => some (.register (.reg .v1))
  | ['V', '2'] => some (.register (.reg .v2))
  | ['V', '3'] => some (.register (.reg .v3))
  | ['V', 'G'] => some (.register .vg)
  | _ => (readNumber l).map .number

/-- Every operand of a list, if each is one. -/
def readOperands : List (List Char) → Option (List AsmOperand)
  | [] => some []
  | p :: ps =>
    match readOperand (trimText p), readOperands ps with
    | some o, some os => some (o :: os)
    | _, _ => none

/-- A number that fits a 16-bit field (30_encoding.md R102). -/
def field16 (n : Nat) : Option Word16 := if n < 65536 then some (BitVec.ofNat 16 n) else none

/-- A command with one 16-bit operand. -/
def withField (n : Nat) (mk : Word16 → Instr) : Option (List Instr) := (field16 n).map fun a => [mk a]

/-- A command with two 16-bit operands. -/
def withFields (n m : Nat) (mk : Word16 → Word16 → Instr) : Option (List Instr) :=
  match field16 n, field16 m with
  | some a, some b => some [mk a b]
  | _, _ => none

/-- The commands of a mnemonic and its operands, in the assembler order of 30_encoding.md R104; a pseudo-command stands
for its expansion (R121). A VG where the command writes, and a number that does not fit, name no command. -/
def assembleCommand (mnemonic : String) (ops : List AsmOperand) : Option (List Instr) :=
  match mnemonic, ops with
  | "NOP", [] => some [.nop]
  | "DIAG_CLR", [] => some [.diagClr]
  | "BV_CLR", [.register (.reg rd)] => some [.bvClr rd]
  | "BV_GET", [.register rs, .number idx] => withField idx (.bvGet rs)
  | "BV_SET", [.register (.reg rd), .number idx, .number 0] => withField idx (.bvSet rd · false)
  | "BV_SET", [.register (.reg rd), .number idx, .number 1] => withField idx (.bvSet rd · true)
  | "BV_LOAD", [.register (.reg rd), .number addr, .number n] => withFields addr n (.bvLoad rd)
  | "BV_STORE", [.register rs, .number addr] => withField addr (.bvStore rs)
  | "BV_XOR", [.register (.reg rd), .register rs, .number off] => withField off (.bvXor rd rs)
  | "CRC_DIV", [.register (.reg rd), .register rs] => some [.crcDiv rd rs]
  | "CRC_REM", [.register rs] => some [.crcRem rs]
  | "CRC_APPEND", [.register (.reg rd), .register rs] => some [.crcAppend rd rs]
  | "CRC_VERIFY", [.register rs] => some [.crcVerify rs]
  | "HAM_PARITY", [.register rs] => some [.hamParity rs]
  | "HAM_CORRECT", [.register (.reg rd), .number par] =>
    if par < 256 then some [.hamCorrect rd (BitVec.ofNat 8 par)] else none
  | "HAM_APPEND", [.register (.reg rd), .register rs] => some [.hamAppend rd rs]
  | "HAM_VERIFY", [.register (.reg rd), .register rs] => some [.hamVerify rd rs]
  | "FRM_ENCODE", [.number src, .number n, .number dst] =>
    (field16 dst).bind fun d => withFields src n (.frmEncode · · d)
  | "FRM_COMPLETE", [.number src, .number n] => withFields src n .frmComplete
  | "FRM_DECODE", [.number src, .number n, .number dst] =>
    (field16 dst).bind fun d => withFields src n (.frmDecode · · d)
  | "FRM_SEND", [.number src, .number n] => withFields src n .frmSend
  | "BV_MOV", [.register (.reg rd), .register rs] => some (expandPseudo (.bvMov rd rs))
  | "BV_XORG", [.register (.reg rd), .number off] => (field16 off).map fun o => expandPseudo (.bvXorg rd o)
  | "CRC_CHECK", [.register rs] => some (expandPseudo (.crcCheck rs))
  | "SEND", [.number src, .number n] =>
    match field16 src, field16 n with
    | some a, some b => some (expandPseudo (.send a b))
    | _, _ => none
  | _, _ => none

/-- The commands of one line, none of them for an empty line or a comment (30_encoding.md R120). -/
def assembleLine (line : List Char) : Option (List Instr) :=
  let text := trimText (line.takeWhile (· != ';'))
  let mnemonic := text.takeWhile fun c => !isBlank c
  let rest := trimText (text.dropWhile fun c => !isBlank c)
  if text.isEmpty then some []
  else
    match readOperands (if rest.isEmpty then [] else splitText ',' rest) with
    | some ops => assembleCommand (String.ofList mnemonic) ops
    | none => none

/-- The commands of a list of lines, top to bottom. -/
def assembleLines : List (List Char) → Option (List Instr)
  | [] => some []
  | l :: ls =>
    match assembleLine l, assembleLines ls with
    | some a, some b => some (a ++ b)
    | _, _ => none

/-- A program text: its lines executed top to bottom; no labels and no directives (30_encoding.md R120). -/
def assemble (text : List Char) : Option (List Instr) := assembleLines (splitText '\n' text)

end Sys2Proof.Machine
end

