-- ==== Sys2Proof/Tests/Slice0.lean ====
section
/-! SUPPORT. Tests. Expected values are those of spec/95_test_vectors.md and of the rules' own examples; command words
are written out from the patterns of spec/30_encoding.md R105 and the examples of R106. Theorems named `witness_<Name>`
show concrete states and operands that meet the hypotheses of `Obligations.<Name>`, clause by clause. -/

set_option Elab.async false

namespace Sys2Proof.Tests

open Sys2Proof.Machine

/-- The next state, if there is one. -/
def ended (r : Result) : Option State :=
  match r with
  | .next s => some s
  | .fault _ => none
  | .refused _ => none

/-- A bit vector written as 0s and 1s, index 0 first. -/
def vec (l : List Nat) : Bits := l.map (· == 1)

/-- After reset with V0 and V1 set. -/
def withV (v w : Bits) : State := { State.reset with v0 := v, v1 := w }

/-- An instance with bytes in MEM. -/
def withBytes (sc : Scheme) (a : Nat) (B : List Byte) : State := State.resetFor sc (Memory.writeBytes [] a B)

/-- A state at which the host presents a command word. -/
def presenting (s : State) (w : CmdWord) : State := { s with host := [.present (.cmd w)] }

/-! ### Parameters -/

/-- The table of 00_scope.md R10. -/
theorem test_parameters : Config.nv = 4 ∧ Config.bvCap = 256 ∧ Config.aw = 16 ∧ Config.memSize = 65536 ∧
    Config.hamMaxData = 247 ∧ Config.trailerLen .crc = 2 ∧ Config.trailerLen .ham = 1 ∧ Config.maxFrameLen = 20 := by
  decide

/-! ### WellFormed -/

theorem test_wellFormed_refuses_start : (Instr.wireData 0x7B).wellFormed = false := by decide
theorem test_wellFormed_refuses_stop : (Instr.wireData 0x7D).wellFormed = false := by decide
theorem test_wellFormed_refuses_esc : (Instr.wireData 0x5C).wellFormed = false := by decide
theorem test_wellFormed_data : (Instr.wireData 0x41).wellFormed = true ∧ (Instr.frmSend 0 0).wellFormed = true := by
  decide

/-! ### Decoding: one word per constructor, written in the groups op, rd, rs, z, a, b, c of R105 -/

theorem test_decode_nop : decodeTableWord 64
    0b00000000_000_000_00_0000000000000000_0000000000000000_0000000000000000 = some .nop := by decide
theorem test_decode_diagClr : decodeTableWord 64
    0b00000001_000_000_00_0000000000000000_0000000000000000_0000000000000000 = some .diagClr := by decide
theorem test_decode_bvClr : decodeTableWord 64
    0b00010000_010_000_00_0000000000000000_0000000000000000_0000000000000000 = some (.bvClr .v2) := by decide
theorem test_decode_bvGet : decodeTableWord 64
    0b00010001_000_001_00_0000000000000101_0000000000000000_0000000000000000 = some (.bvGet (.reg .v1) 5) := by decide
theorem test_decode_bvSet : decodeTableWord 64
    0b00010010_000_000_00_0000000000010100_0000000000000001_0000000000000000 = some (.bvSet .v0 20 true) := by decide
theorem test_decode_bvLoad : decodeTableWord 64
    0b00010011_011_000_00_0000000100000000_0000000000000010_0000000000000000 = some (.bvLoad .v3 0x0100 2) := by decide
theorem test_decode_bvStore : decodeTableWord 64
    0b00010100_000_001_00_0000001000000000_0000000000000000_0000000000000000 = some (.bvStore (.reg .v1) 0x0200) := by
  decide
theorem test_decode_bvXor : decodeTableWord 64
    0b00010101_000_111_00_0000000000000011_0000000000000000_0000000000000000 = some (.bvXor .v0 .vg 3) := by decide
theorem test_decode_crcDiv : decodeTableWord 64
    0b00100000_001_000_00_0000000000000000_0000000000000000_0000000000000000 = some (.crcDiv .v1 (.reg .v0)) := by decide
theorem test_decode_crcRem : decodeTableWord 64
    0b00100001_000_000_00_0000000000000000_0000000000000000_0000000000000000 = some (.crcRem (.reg .v0)) := by decide
theorem test_decode_crcAppend : decodeTableWord 64
    0b00100010_001_000_00_0000000000000000_0000000000000000_0000000000000000 = some (.crcAppend .v1 (.reg .v0)) := by
  decide
theorem test_decode_crcVerify : decodeTableWord 64
    0b00100011_000_001_00_0000000000000000_0000000000000000_0000000000000000 = some (.crcVerify (.reg .v1)) := by decide
theorem test_decode_hamParity : decodeTableWord 64
    0b00110000_000_010_00_0000000000000000_0000000000000000_0000000000000000 = some (.hamParity (.reg .v2)) := by decide
theorem test_decode_hamCorrect : decodeTableWord 64
    0b00110001_000_000_00_0000000000010000_0000000000000000_0000000000000000 = some (.hamCorrect .v0 0x10) := by decide
theorem test_decode_hamAppend : decodeTableWord 64
    0b00110010_001_000_00_0000000000000000_0000000000000000_0000000000000000 = some (.hamAppend .v1 (.reg .v0)) := by
  decide
theorem test_decode_hamVerify : decodeTableWord 64
    0b00110011_010_001_00_0000000000000000_0000000000000000_0000000000000000 = some (.hamVerify .v2 (.reg .v1)) := by
  decide
theorem test_decode_frmEncode : decodeTableWord 64
    0b01000000_000_000_00_0000000100000000_0000000000000010_0000001000000000 = some (.frmEncode 0x0100 2 0x0200) := by
  decide
theorem test_decode_frmComplete : decodeTableWord 64
    0b01000001_000_000_00_0000001000000000_0000000000000110_0000000000000000 = some (.frmComplete 0x0200 6) := by decide
theorem test_decode_frmDecode : decodeTableWord 64
    0b01000010_000_000_00_0000001000000000_0000000000000110_0000001100000000 = some (.frmDecode 0x0200 6 0x0300) := by
  decide
theorem test_decode_frmSend : decodeTableWord 64
    0b01000011_000_000_00_0000000100000000_0000000000001011_0000000000000000 = some (.frmSend 0x0100 11) := by decide
theorem test_decode_wireStart : decodeTableWord 8 0b01111011 = some .wireStart := by decide
theorem test_decode_wireStop : decodeTableWord 8 0b01111101 = some .wireStop := by decide
theorem test_decode_wireEsc : decodeTableWord 8 0b01011100 = some .wireEsc := by decide
theorem test_decode_wireData : decodeTableWord 8 0b01000001 = some (.wireData 0x41) := by decide

/-- The illegal words of 95_test_vectors.md section 6, R108 (a) to (g). -/
theorem test_decode_illegal :
    ([0x0200000000000000, 0x1600000000000000, 0x2400000000000000, 0x3400000000000000, 0x4400000000000000,
      0xFF00000000000000, 0x2101000000000000, 0x0000000000000001, 0x1004000000000000, 0x1080000000000000,
      0x1114000000000000, 0x10E0000000000000, 0x1200000300020000, 0x3100010000000000] : List CmdWord).all
        (fun w => decodeCmd w == none) = true := by decide +kernel

/-- A word of a row's pattern is the row's mnemonic, and the encoder gives the words of R106 back. -/
theorem test_encode_worked :
    encode (.bvSet .v0 20 true) = .cmd 0x1200001400010000 ∧ encode (.bvXor .v0 .vg 3) = .cmd 0x151C000300000000 ∧
    encode (.hamVerify .v2 (.reg .v1)) = .cmd 0x3344000000000000 ∧
    encode (.frmDecode 0x0200 6 0x0300) = .cmd 0x4200020000060300 := by decide +kernel

/-! ### Commands -/

/-- R281's example: STATUS = 0x0002, DIAG = 0x02. -/
theorem test_nop_keeps_diag : ended (exec .nop { State.reset with status := 2, diag := 2 }) =
    some { State.reset with diag := 2 } := by decide

/-- R282's example, and 95_test_vectors.md section 6: a refused DIAG_CLR. -/
theorem test_diagClr : ended (exec .diagClr { State.reset with status := 2, diag := 0x46 }) = some State.reset := by
  decide
theorem test_diagClr_refused :
    ended (step (presenting { State.reset with diag := 2 } 0x0100000000000001)) =
      some { State.reset with diag := 0x42, status := 8 } := by decide +kernel

/-- R145's example. -/
theorem test_bvClr : ended (exec (.bvClr .v0) (withV (vec [1, 0, 1, 1]) (vec [1]))) = some (withV [] (vec [1])) := by
  decide

/-- R146's example and its corner case for VG. -/
theorem test_bvGet : (ended (exec (.bvGet (.reg .v1) 5) (withV [] (vec [1, 1, 0, 1, 1, 1, 1, 0, 1, 0])))).map (·.res) =
    some 1 := by decide
theorem test_bvGet_vg : (ended (exec (.bvGet .vg 16) State.reset)).map (·.res) = some 1 ∧
    (ended (exec (.bvGet .vg 1) { State.reset with res := 7 })).map (·.res) = some 0 := by decide

/-- R147's corner cases: 0 beyond the end lengthens; index 255 is the last. -/
theorem test_bvSet_zero_grows : (ended (exec (.bvSet .v1 9 false) State.reset)).map (·.v1) =
    some (List.replicate 10 false) := by decide
theorem test_bvSet_capacity : (ended (exec (.bvSet .v0 256 true) State.reset)).map (·.status) = some 0x0A := by decide

/-- R148's example and the end of MEM. -/
theorem test_bvLoad : (ended (exec (.bvLoad .v0 0x0100 2) (withBytes .crc 0x0100 [0x7B, 0x41]))).map (·.v0) =
    some (vec [1, 1, 0, 1, 1, 1, 1, 0, 1, 0, 0, 0, 0, 0, 1, 0]) := by decide +kernel
theorem test_bvLoad_range : (ended (exec (.bvLoad .v0 0xFFFF 2) State.reset)).map (·.status) = some 9 := by decide

/-- R149's example and its corner case for VG. -/
theorem test_bvStore : (ended (exec (.bvStore (.reg .v1) 0x0200) (withV [] (vec [1, 1, 0, 1, 1, 1, 1, 0, 1, 0])))).map
    (fun s => (s.mem, s.rlen)) = some ([(0x0200, 0x7B), (0x0201, 0x01)], 2) := by decide +kernel
theorem test_bvStore_vg : (ended (exec (.bvStore .vg 0x0210) (withBytes .crc 0x0211 [9]))).map
    (fun s => (s.mem, s.rlen)) = some ([(0x0210, 1), (0x0212, 1)], 3) := by decide +kernel

/-- R150's example, and rd = rs with an offset (95_test_vectors.md section 2.2). -/
theorem test_bvXor : (ended (exec (.bvXor .v0 .vg 3)
    (withV (vec [1, 1, 0, 1, 0, 0, 0, 0, 0, 0, 0, 0, 0, 0, 0, 0, 0, 0, 0, 0, 0, 0, 0]) []))).map (·.v0) =
    some (vec [1, 1, 0, 0, 0, 0, 0, 0, 0, 0, 0, 0, 0, 0, 0, 0, 0, 0, 0, 1, 0, 0, 0]) := by decide +kernel
theorem test_bvXor_self_offset : (ended (exec (.bvXor .v1 (.reg .v1) 1)
    (withV [] (vec [1, 1, 0, 0, 0, 0, 0, 0, 0, 0])))).map (·.v1) = some (vec [1, 0, 1, 0, 0, 0, 0, 0, 0, 0, 0]) := by
  decide +kernel

/-- R175's example and corner case. -/
theorem test_crcDiv : (ended (exec (.crcDiv .v1 (.reg .v0))
    (withV (vec [1, 0, 0, 0, 0, 0, 1, 1, 0, 0, 0, 0, 0, 0, 0, 0, 0, 0, 0, 0, 0, 0, 0, 0]) []))).map (·.v1) =
    some (vec [0, 0, 0, 0, 0, 0, 0, 0, 0, 0, 0, 0, 0, 0, 0, 0, 1, 0, 0, 0, 0, 0, 1, 1]) := by decide +kernel
theorem test_crcDiv_vg : (ended (exec (.crcDiv .v2 .vg) State.reset)).map (·.v2) = some (List.replicate 17 false) := by
  decide +kernel

/-- R176's example. -/
theorem test_crcRem : (ended (exec (.crcRem (.reg .v0)) (withV (vec [1, 0, 0, 0, 0, 0, 1, 1]) []))).map (·.res) =
    some 0xC100 := by decide +kernel

/-- R177's example, and the empty source. -/
theorem test_crcAppend : (ended (exec (.crcAppend .v1 (.reg .v0)) (withV (vec [1, 0, 0, 0, 0, 0, 1, 1]) []))).map (·.v1)
    = some (vec [1, 0, 0, 0, 0, 0, 1, 1, 0, 0, 0, 0, 0, 0, 0, 0, 1, 0, 0, 0, 0, 0, 1, 1]) := by decide +kernel
theorem test_crcAppend_empty : (ended (exec (.crcAppend .v2 (.reg .v3)) State.reset)).map (·.v2) =
    some (List.replicate 16 false) := by decide +kernel

/-- R178's two examples. -/
theorem test_crcVerify_ok : (ended (exec (.crcVerify (.reg .v1))
    (withV [] (vec [1, 0, 0, 0, 0, 0, 1, 1, 0, 0, 0, 0, 0, 0, 0, 0, 1, 0, 0, 0, 0, 0, 1, 1])))).map
    (fun s => (s.res, s.status, s.diag)) = some (1, 0, 0) := by decide +kernel
theorem test_crcVerify_mismatch : (ended (exec (.crcVerify (.reg .v1))
    (withV [] (vec [1, 0, 0, 1, 0, 0, 1, 1, 0, 0, 0, 0, 0, 0, 0, 0, 1, 0, 0, 0, 0, 0, 1, 1])))).map
    (fun s => (s.res, s.status, s.diag)) = some (0, 2, 2) := by decide +kernel

/-- R207's example and its corner case for VG. -/
theorem test_hamParity : (ended (exec (.hamParity (.reg .v0))
    (withV (vec [1, 1, 0, 1, 1, 1, 1, 0, 1, 0, 0, 0, 0, 0, 1, 0]) []))).map (·.res) = some 0x10 := by decide +kernel
theorem test_hamParity_vg : (ended (exec (.hamParity .vg) State.reset)).map (·.res) = some 0x15 := by decide +kernel

/-- R208's example, and an out-of-range syndrome (95_test_vectors.md section 4.3). -/
theorem test_hamCorrect : (ended (exec (.hamCorrect .v0 0x10)
    (withV (vec [1, 1, 0, 0, 1, 1, 1, 0, 1, 0, 0, 0, 0, 0, 1, 0]) []))).map
    (fun s => (s.v0, s.synd, s.res, s.status, s.diag)) =
    some (vec [1, 1, 0, 1, 1, 1, 1, 0, 1, 0, 0, 0, 0, 0, 1, 0], 7, 7, 0x10, 4) := by decide +kernel
theorem test_hamCorrect_outOfRange : (ended (exec (.hamCorrect .v0 0x05)
    (withV (vec [1, 0, 0, 0, 0, 0, 1, 0]) []))).map (fun s => (s.v0, s.synd, s.status)) =
    some (vec [1, 0, 0, 0, 0, 0, 1, 0], 0x0D, 0x30) := by decide +kernel

/-- R209's example. -/
theorem test_hamAppend : (ended (exec (.hamAppend .v1 (.reg .v0)) (withV (vec [1, 0, 0, 0, 0, 0, 1, 0]) []))).map (·.v1)
    = some (vec [1, 0, 0, 0, 0, 0, 1, 0, 0, 0, 0, 1, 0, 0, 0, 0]) := by decide +kernel

/-- R210's example, and a vector below 8 bits. -/
theorem test_hamVerify : (ended (exec (.hamVerify .v2 (.reg .v1))
    (withV [] (vec [1, 0, 0, 0, 0, 0, 0, 0, 0, 0, 0, 1, 0, 0, 0, 0])))).map (fun s => (s.v2, s.synd, s.status)) =
    some (vec [1, 0, 0, 0, 0, 0, 1, 0], 0x0B, 0x10) := by decide +kernel
theorem test_hamVerify_tooShort : ended (exec (.hamVerify .v1 (.reg .v0))
    { withV (vec [0, 0, 0, 0, 0, 0, 1]) [] with synd := 9, res := 7 }) =
    some { withV (vec [0, 0, 0, 0, 0, 0, 1]) [] with synd := 9, res := 7, status := 5, diag := 0x20 } := by
  decide +kernel

/-- R241's example; and a frame that would pass the end of MEM (95_test_vectors.md section 5.8). -/
theorem test_frmEncode : (ended (exec (.frmEncode 0x0100 2 0x0200) (withBytes .ham 0x0100 [0x7B, 0x41]))).map
    (fun s => (s.mem.readBytes 0x0200 6, s.rlen)) = some ([0x7B, 0x5C, 0x7B, 0x41, 0x10, 0x7D], 6) := by decide +kernel
theorem test_frmEncode_range : (ended (exec (.frmEncode 0x0100 2 0xFFFA) (withBytes .crc 0x0100 [0x7B, 0x41]))).map
    (·.status) = some 9 := by decide +kernel

/-- R242's examples: an escaped stop, and R357's case (c). -/
theorem test_frmComplete : (ended (exec (.frmComplete 0x0100 4) (withBytes .ham 0x0100 [0x7B, 0x41, 0x08, 0x7D]))).map
    (·.res) = some 1 := by decide +kernel
theorem test_frmComplete_escaped :
    (ended (exec (.frmComplete 0x0100 4) (withBytes .ham 0x0100 [0x7B, 0x5C, 0x5C, 0x7D]))).map (·.res) = some 0 := by
  decide +kernel

/-- R243's example of a corrected frame, and R352's chunk 7D under CRC. -/
theorem test_frmDecode : (ended (exec (.frmDecode 0x0200 6 0x0300)
    (withBytes .ham 0x0200 [0x7B, 0x5C, 0x7B, 0x43, 0x10, 0x7D]))).map
    (fun s => (s.mem.readBytes 0x0300 2, s.rlen, s.res, s.synd, s.status, s.diag)) =
    some ([0x7B, 0x41], 2, 6, 0x0E, 0x10, 4) := by decide +kernel
theorem test_frmDecode_unsafe_trailer : (ended (exec (.frmDecode 0x0200 6 0x0300)
    (withBytes .crc 0x0200 [0x7B, 0x5C, 0x7D, 0x00, 0x7D, 0x7D]))).map (fun s => (s.rlen, s.res, s.status, s.diag)) =
    some (0, 5, 2, 2) := by decide +kernel

/-- R244's example under HAM, and the empty message. -/
theorem test_frmSend : (ended (exec (.frmSend 0x0100 11) (withBytes .ham 0x0100
    [0x41, 0x42, 0x43, 0x44, 0x45, 0x46, 0x47, 0x48, 0x49, 0x4A, 0x4B]))).map (fun s => (s.txLog, s.rlen)) =
    some ([[0x7B, 0x41, 0x42, 0x43, 0x44, 0x45, 0x46, 0x47, 0x48, 0x12, 0x7D], [0x7B, 0x49, 0x4A, 0x4B, 0x00, 0x7D]], 2)
    := by decide +kernel
theorem test_frmSend_empty : ended (exec (.frmSend 0 0) { State.reset with rlen := 5 }) = some State.reset := by
  decide +kernel

/-- The parser on the wire: R237's table. -/
theorem test_wireStart : (ended (exec .wireStart State.reset)).map (·.parser) = some ⟨.data, [], 1⟩ := by decide
theorem test_wireStop : (ended (exec .wireStop { State.reset with parser := ⟨.esc, [0x41], 3⟩ })).map (·.parser) =
    some ⟨.data, [0x41, 0x7D], 4⟩ := by decide
theorem test_wireEsc : (ended (exec .wireEsc { State.reset with parser := ⟨.data, [0x41], 2⟩ })).map (·.parser) =
    some ⟨.esc, [0x41], 3⟩ := by decide
theorem test_wireData : (ended (exec (.wireData 0x41) State.reset)).map (·.parser) = some ⟨.missingStart, [], 1⟩ := by
  decide

/-! ### The step and the host's port -/

theorem test_withFetchWord_runs : ended (step (State.reset.withFetchWord 64 0x1200001400010000)) =
    some { State.reset with v0 := List.replicate 20 false ++ [true] } := by decide +kernel
theorem test_withFetchWord_wire : (ended (step (State.reset.withFetchWord 8 0x7B))).map (·.parser) =
    some ⟨.data, [], 1⟩ := by decide +kernel
theorem test_step_idle : ended (step State.reset) = some State.reset := by decide
theorem test_reset_keeps_strap_and_mem :
    ended (step { withBytes .ham 0x10 [5] with v0 := [true], diag := 0x7F, txLog := [[1]], host := [.reset] }) =
      some (withBytes .ham 0x10 [5]) := by decide +kernel
theorem test_hostValue : State.reset.hostValue (.status 0) = .word 0 ∧
    (withBytes .ham 0x10 [5]).hostValue (.status 0) = .word 1 ∧
    (withBytes .ham 0x10 [5]).hostValue (.mem 0x10) = .word 5 := by decide +kernel

/-- R121: BV_MOV copies a register. -/
theorem test_bvMov : ended (execList (expandPseudo (.bvMov .v1 (.reg .v0))) (withV (vec [1, 0, 1]) (vec [1, 1]))) =
    some (withV (vec [1, 0, 1]) (vec [1, 0, 1])) := by decide +kernel

/-- Lines of R106's table give the words beside them; a comment, a blank line and a pseudo-command (R120, R121). -/
theorem test_assemble_worked :
    (assemble "BV_SET V0, 20, 1 ; grow\n\nBV_XOR V0, VG, 3\nFRM_ENCODE 0x0100, 2, 0x0200\nHAM_CORRECT V0, 0x10".toList).map
      (·.map encode) = some [.cmd 0x1200001400010000, .cmd 0x151C000300000000, .cmd 0x4000010000020200,
        .cmd 0x3100001000000000] := by decide +kernel
theorem test_assemble_pseudo : assemble "BV_MOV V1, V0".toList = some [.bvClr .v1, .bvXor .v1 (.reg .v0) 0] ∧
    assemble "BV_CLR VG".toList = none := by decide +kernel

/-! ### Hazards the model must show (70_reset_and_hazards.md) -/

/-- R352: a chunk whose HAM trailer is 7D decodes to a wrong payload with ERR 0. -/
theorem test_hazard_ham_stop : decodeFrame .ham (frame .ham [0, 0, 0, 0, 0, 0, 0x20, 2]) =
    .ok [0, 0, 0, 0, 0, 0, 0xA0] 10 (some (0x3E, .dataCorrected)) := by decide +kernel
/-- R353: a trailer ending in 5C swallows the stop tag. -/
theorem test_hazard_esc : decodeFrame .ham (frame .ham [0, 0, 0x80, 0, 0, 0, 0, 2]) = .fail .noStopTag ∧
    decodeFrame .crc (frame .crc [0x5C]) = .fail .noStopTag ∧
    decodeFrame .crc (frame .crc [0x5C, 0x41]) = .fail .crcMismatch := by decide +kernel
/-- R356: one flipped bit, a false "ok". -/
theorem test_hazard_false_ok : decodeFrame .crc [0x7B, 0x41, 0x42, 0x41, 0x42, 0x7D, 0x00, 0x7C, 0x7D] =
    .ok [0x41, 0x42] 6 none := by decide +kernel
/-- R358: two flips sixteen bits apart pass. -/
theorem test_hazard_blind_spot : decodeFrame .crc [0x7B, 0x40, 0x42, 0x40, 0x42, 0x7D] = .ok [0x40, 0x42] 6 none := by
  decide +kernel

/-! ### Witnesses: the hypotheses of the obligations can be met -/

theorem witness_DecodeEncodeRoundTrip : (Instr.wireData 0x7C).wellFormed = true ∧
    (Instr.bvSet .v3 0xFFFF true).wellFormed = true ∧ (Instr.frmDecode 0xFFFF 0xFFFF 0xFFFF).wellFormed = true := by
  decide

theorem witness_EncodeDecodeRoundTrip : decode (.cmd 0x3344000000000000) = some (.hamVerify .v2 (.reg .v1)) ∧
    decode (.byte 0xFF) = some (.wireData 0xFF) := by decide +kernel

/-- One illegal word for each of R108 (a) to (g), in the host's list; and a legal one. -/
theorem witness_IllegalWordsAreExactlyRule108 :
    (∀ w ∈ ([0x0200000000000000, 0x2101000000000000, 0x1004000000000000, 0x1080000000000000, 0x10E0000000000000,
      0x1200000300020000, 0x3100010000000000] : List CmdWord),
      IllegalWord w ∧ (presenting State.reset w).host = .present (.cmd w) :: []) ∧
    ¬ IllegalWord 0x310000FF00000000 := by
  constructor
  · intro w hw
    fin_cases hw <;> refine ⟨?_, rfl⟩ <;> simp [IllegalWord, usedFields, fieldNat, registerFieldsIllegal]
  · simp [IllegalWord, usedFields, fieldNat, registerFieldsIllegal]

theorem witness_OpcodeTableSelectsTheCommand :
    (∃ r ∈ cmdRows, r.matches 0x3100001000000000 = true ∧ r.mnemonic = "HAM_CORRECT") ∧
    decodeCmd 0x3100001000000000 = some (.hamCorrect .v0 0x10) ∧ decodeCmd 0x1080000000000000 = none := by
  decide +kernel

theorem witness_StepRunsTheDecodedInstruction :
    (presenting State.reset 0x2100000000000000).host = .present (.cmd 0x2100000000000000) :: [] ∧
    decode (.cmd 0x2100000000000000) = some (.crcRem (.reg .v0)) := by decide +kernel

theorem witness_StepCarriesOutHostMoves :
    State.reset.host = [] ∧
    { State.reset with host := [.read (.mem 0xFFFF)] }.host = .read (.mem 0xFFFF) :: [] ∧
    { State.reset with host := [.writeMem 0xFFFF 0xFF] }.host = .writeMem 0xFFFF 0xFF :: [] ∧
    { State.reset with host := [.takeTx 1], txLog := [[0x7B]] }.host = .takeTx 1 :: [] ∧
    { State.reset with host := [.reset] }.host = .reset :: [] ∧
    { State.reset with host := [.newBuffer] }.host = .newBuffer :: [] := by decide

theorem witness_ResetLeavesTheRuleValues :
    { withBytes .ham 0x10 [5] with host := [.reset, .reset], diag := 0x7F }.host = .reset :: [.reset] := by
  decide +kernel

theorem witness_ResetSatisfiesTheInvariant :
    Memory.wf [(0, 1), (65535, 0xFF)] ∧ Memory.inRange [(0, 1), (65535, 0xFF)] := by decide

/-- A state that meets the invariant with every part of it in use: a full register, the HAM strap, a corrected
outcome, MEM in both ends, a sent frame, a parser inside a buffer; and a step from it. -/
def busyState : State :=
  { State.resetFor .ham [(0, 1), (65535, 0xFF)] with
    v0 := List.replicate 256 true, status := 0x10, diag := 0x7F, txLog := [frame .ham [0x41]]
    parser := ⟨.esc, [0x41], 3⟩, host := [.present (.cmd 0x4300000000010000)] }

theorem witness_EveryStepKeepsTheInvariant : Inv busyState ∧ ∃ t, step busyState = .next t := by
  refine ⟨?_, _, rfl⟩
  refine ⟨?_, by decide, .inl ⟨.dataCorrected, by decide⟩, by decide, ?_, by decide, ?_, ⟨[0x7B, 0x41, 0x5C], by decide⟩⟩
  · intro r
    cases r
    · exact Nat.le_of_eq List.length_replicate
    all_goals exact Nat.zero_le _
  · exact ⟨by decide, by decide⟩
  · intro F hF
    simp only [busyState, List.mem_singleton] at hF
    exact ⟨[0x41], by decide, by decide, hF⟩

theorem witness_CommandEndsInOneOfThreeWays : isCommand .nop = true ∧ isCommand (.frmSend 0xFFFF 0xFFFF) = true := by
  decide

/-- A refused legal command and an illegal word. -/
theorem witness_RefusalChangesOnlyStatusAndRefused :
    (ended (step (presenting State.reset 0x1300FFFF00020000))).map (fun t => 8 ≤ t.err) = some True ∧
    (ended (step (presenting State.reset 0xFF00000000000000))).map (fun t => t.err) = some 8 := by
  constructor
  · simp only [show ended (step (presenting State.reset 0x1300FFFF00020000)) =
      some { State.reset with status := 9, diag := 0x40 } by decide +kernel, Option.map_some, Option.some.injEq,
      eq_iff_iff, iff_true]
    decide
  · decide +kernel

/-- One run for each command that ends with an error kind, with the lowest and the highest kind. -/
theorem witness_ErrorKindLeavesDataUnchanged :
    (ended (exec (.crcVerify (.reg .v0)) (withV [true] []))).map State.err = some 2 ∧
    (ended (exec (.hamVerify .v1 (.reg .v0)) State.reset)).map State.err = some 5 ∧
    (ended (exec (.frmDecode 0 0 0) State.reset)).map State.err = some 1 ∧
    (ended (exec (.frmDecode 0x10 2 0) (withBytes .ham 0x10 [0x7B, 0x7D]))).map State.err = some 5 := by decide +kernel

/-- One run for each case of the conclusion. -/
theorem witness_CommandSetsAtMostOneDiagBit :
    (ended (exec .diagClr { State.reset with diag := 0x7F })).map (·.diag) = some 0 ∧
    (ended (exec (.bvClr .v0) { State.reset with diag := 1 })).map (·.diag) = some 1 ∧
    (ended (exec (.crcVerify (.reg .v0)) (withV [true] []))).map (·.diag) = some 2 ∧
    (ended (exec (.bvSet .v0 256 true) State.reset)).map (·.diag) = some 0x40 ∧
    (ended (exec (.hamCorrect .v0 1) State.reset)).map (·.diag) = some 4 := by decide +kernel

theorem witness_DiagClearedOnlyByDiagClrOrReset :
    fieldNat 0x0100000000000001 56 8 = 0x01 ∧ (0x0100000000000001 : CmdWord) ≠ 0x0100000000000000 ∧
    (presenting State.reset 0x0100000000000001).host = .present (.cmd 0x0100000000000001) :: [] ∧
    (presenting { State.reset with diag := 0x40 } 0x0100000000000000).diag.getLsbD 6 = true ∧
    (ended (step (presenting { State.reset with diag := 0x40 } 0x0100000000000000))).map (·.diag.getLsbD 6) =
      some false := by decide +kernel

theorem witness_FramingCommandsIgnoreTheBank : isFraming (.frmSend 0 0) = true ∧
    ∃ t, exec (.frmSend 0 0) State.reset = .next t := ⟨rfl, _, rfl⟩

theorem witness_SchemeIsConstantAndSteersFramingOnly : (∃ t, exec (.frmSend 0 0) State.reset = .next t) ∧
    usesScheme (.frmComplete 0 0) = false ∧ (∃ t, exec (.frmComplete 0 0) State.reset = .next t) ∧
    Inv busyState ∧ ∃ t, step busyState = .next t :=
  ⟨⟨_, rfl⟩, rfl, ⟨_, rfl⟩, witness_EveryStepKeepsTheInvariant⟩

theorem witness_NoInstructionReadsAResultRegister :
    ∃ t, exec (.hamCorrect .v0 1) { State.reset with res := 7, synd := 9 } = .next t := ⟨_, rfl⟩

theorem witness_NopClearsStatusOnly : fieldNat 0x0000000000000001 56 8 = 0x00 ∧ (0x0000000000000001 : CmdWord) ≠ 0 := by
  decide +kernel

theorem witness_BvSetWritesOneBitAndGrows : (255 : Word16).toNat < 256 ∧ 256 ≤ (256 : Word16).toNat := by decide

theorem witness_BvLoadReadsBytesLowBitFirst :
    ((65535 : Word16).toNat + (1 : Word16).toNat ≤ 65536 ∧ (1 : Word16).toNat ≤ 32) ∧
    ((65504 : Word16).toNat + (32 : Word16).toNat ≤ 65536 ∧ (32 : Word16).toNat ≤ 32) ∧
    65536 < (65535 : Word16).toNat + (2 : Word16).toNat ∧
    ((65503 : Word16).toNat + (33 : Word16).toNat ≤ 65536 ∧ 32 < (33 : Word16).toNat) := by decide

theorem witness_BvStoreWritesPaddedBytes :
    (0xFFFD : Word16).toNat + ((State.reset.readSrc .vg).length + 7) / 8 ≤ 65536 ∧
    65536 < (0xFFFE : Word16).toNat + ((State.reset.readSrc .vg).length + 7) / 8 := by decide

theorem witness_BvXorAtOffset : (State.reset.readSrc (.reg .v1)).length = 0 ∧
    (0 < (State.reset.readSrc .vg).length ∧ (239 : Word16).toNat + (State.reset.readSrc .vg).length ≤ 256) ∧
    (0 < (State.reset.readSrc .vg).length ∧ 256 < (240 : Word16).toNat + (State.reset.readSrc .vg).length) := by decide

theorem witness_BytesAndBitsAreInverse : 1 < (bytes (vec [1, 0, 1, 0, 1, 0, 1, 0, 1])).length ∧ (7 : Nat) < 8 := by
  decide +kernel

theorem witness_CrcDivLeavesTheRemainder : ((withV (List.replicate 16 true) []).readSrc (.reg .v0)).length < 17 ∧
    16 ≤ ((withV (List.replicate 16 true) []).readSrc (.reg .v0)).length ∧
    15 < ((withV (List.replicate 16 true) []).readSrc (.reg .v0)).length := by decide

theorem witness_CrcRemPutsTheRemainderInRes : State.reset.readSrc (.reg .v0) = [] ∧ (15 : Nat) < 16 := by decide

theorem witness_CrcIsTheLongitudinalFold : (0 : Nat) < 16 ∧ (15 : Nat) < 16 := by decide

theorem witness_CrcAppendGivesTheCodeword :
    ((withV (List.replicate 240 true) []).readSrc (.reg .v0)).length ≤ 240 ∧
    240 < ((withV (List.replicate 241 true) []).readSrc (.reg .v0)).length := by decide +kernel

theorem witness_CrcVerifyReportsTheCheck :
    (∀ b ∈ polydiv (State.reset.readSrc .vg), b = false) ∧
    ∃ b ∈ polydiv ((withV [true] []).readSrc (.reg .v0)), b = true := by decide +kernel

theorem witness_PolydivIsLinear : Config.gen.length = 17 ∧ Config.gen.getD 0 false = true ∧
    (vec [1, 0]).length = (vec [0, 1]).length := by decide

theorem witness_CrcCheckIsRemainderComparison : Config.gen.length = 17 ∧ Config.gen.getD 0 false = true ∧
    16 ≤ (List.replicate 16 false).length := by decide

theorem witness_CrcDetectionPower : Config.gen.length = (List.replicate 17 true).length ∧ crcOk Config.gen = true ∧
    16 < Config.gen.length := by decide +kernel

theorem witness_HamPositionsSkipPowersOfTwo : (3 ≤ 3 ∧ ¬ ∃ k, 3 = 2 ^ k) ∧ 2 ^ 1 ≤ 3 ∧ 3 < 2 ^ (1 + 1) := by
  refine ⟨⟨le_refl 3, ?_⟩, by decide, by decide⟩
  rintro ⟨k, hk⟩
  rcases k with _ | _ | k
  · omega
  · omega
  · have := Nat.one_le_two_pow (n := k)
    omega

theorem witness_ParityCircuitsMatchThePositions : (List.replicate 247 true).length ≤ 247 ∧
    246 < (List.replicate 247 true).length ∧ (List.replicate 64 true).length ≤ 64 := by decide +kernel

theorem witness_HamParityAndHamAppendResults :
    ((withV (List.replicate 247 true) []).readSrc (.reg .v0)).length ≤ 247 ∧
    247 < ((withV (List.replicate 248 true) []).readSrc (.reg .v0)).length := by decide +kernel

/-- A received parity for each class on V0 = 10000010, whose parity is 0x08 (R209, R212), and a vector too long. -/
theorem witness_HamCorrectFollowsTheSyndrome :
    hamParity (vec [1, 0, 0, 0, 0, 0, 1, 0]) ^^^ 0x08 = 0 ∧
    (∃ k, (hamParity (vec [1, 0, 0, 0, 0, 0, 1, 0]) ^^^ 0x88).toNat = 2 ^ k) ∧
    (hamParity (vec [1, 0, 0, 0, 0, 0, 1, 0]) ^^^ 0x04).toNat = 12 ∧ hamIndex 12 = 7 ∧
    (hamParity (vec [1, 0, 0, 0, 0, 0, 1, 0]) ^^^ 0x05).toNat = 13 ∧ hamIndex 13 = 8 ∧
    (¬ ∃ k, 12 = 2 ^ k) ∧ (¬ ∃ k, 13 = 2 ^ k) ∧ 247 < (List.replicate 248 true).length := by
  have noPow : ∀ n k : Nat, 8 < n → n < 16 → n ≠ 2 ^ k := by
    intro n k h1 h2 h
    rcases Nat.lt_or_ge k 4 with hk | hk
    · interval_cases k <;> omega
    · have := Nat.pow_le_pow_right (n := 2) (by decide) hk
      omega
  refine ⟨by decide +kernel, ⟨7, by decide +kernel⟩, by decide +kernel, by decide +kernel, by decide +kernel,
    by decide +kernel, ?_, ?_, by decide +kernel⟩
  · rintro ⟨k, hk⟩
    exact noPow 12 k (by decide) (by decide) hk
  · rintro ⟨k, hk⟩
    exact noPow 13 k (by decide) (by decide) hk

theorem witness_HamVerifyCorrectsTheCodeword :
    ((withV (List.replicate 255 true) []).readSrc (.reg .v0) =
      List.replicate 247 true ++ (List.range 8).map (0xFF : Byte).getLsbD ∧ (List.replicate 247 true).length ≤ 247) ∧
    255 < ((withV (List.replicate 256 true) []).readSrc (.reg .v0)).length ∧
    ((withV (List.replicate 7 true) []).readSrc (.reg .v0)).length < 8 := by decide +kernel

theorem witness_SingleErrorCorrection : (List.replicate 247 true).length ≤ 247 ∧
    246 < (List.replicate 247 true).length ∧ (7 : Nat) < 8 := by decide +kernel

theorem witness_HamVerifyRepairsAnySingleFlip :
    ((withV (List.replicate 247 true) []).readSrc (.reg .v0)).length ≤ 247 ∧
    254 < ((withV (List.replicate 247 true) []).readSrc (.reg .v0)).length + 8 := by decide +kernel

/-- The frame of the one byte 00 is 5 bytes under CRC and ends on the last byte of MEM. -/
theorem witness_FrmEncodeWritesTheFrame :
    (frame .crc (State.reset.mem.readBytes 0 1)).length = 5 ∧
    (1 ≤ (1 : Word16).toNat ∧ (1 : Word16).toNat ≤ 8 ∧ (0xFFFF : Word16).toNat + (1 : Word16).toNat ≤ 65536 ∧
      (0xFFFB : Word16).toNat + 5 ≤ 65536) ∧
    (0 : Word16).toNat = 0 ∧ 8 < (9 : Word16).toNat ∧
    65536 < (0xFFFF : Word16).toNat + (2 : Word16).toNat ∧ 65536 < (0xFFFC : Word16).toNat + 5 := by decide +kernel

theorem witness_FrmCompleteLooksAtTwoBytes : (0xFFFF : Word16).toNat + (1 : Word16).toNat ≤ 65536 ∧
    65536 < (0xFFFF : Word16).toNat + (2 : Word16).toNat := by decide

/-- A buffer for each clause: each kind the parser gives, a copy too short, 32 copied bytes, a corrupt frame. -/
theorem witness_FrmDecodeErrorsInOrder :
    65536 < (0xFFFF : Word16).toNat + (2 : Word16).toNat ∧
    scanLoop (State.reset.mem.readBytes 0 0) = .fail .missingStartTag ∧
    scanLoop ((withBytes .ham 0 [0x7B, 0x41, 0x5C]).mem.readBytes 0 3) = .fail .malformedEscape ∧
    scanLoop ((withBytes .ham 0 [0x7B, 0x41]).mem.readBytes 0 2) = .fail .noStopTag ∧
    scanLoop ((withBytes .ham 0 [0x7B, 0x7D]).mem.readBytes 0 2) = .ok [] 2 ∧
    scanLoop ((withBytes .ham 0 ([0x7B] ++ List.replicate 32 1 ++ [0x7D])).mem.readBytes 0 34) =
      .ok (List.replicate 32 1) 34 ∧ (withBytes .ham 0 []).scheme = .ham ∧
    scanLoop ((withBytes .crc 0 [0x7B, 0x40, 0x42, 0x41, 0x42, 0x7D]).mem.readBytes 0 6) =
      .ok [0x40, 0x42, 0x41, 0x42] 6 ∧ (withBytes .crc 0 []).scheme = .crc ∧
    crcOk (bits [0x40, 0x42, 0x41, 0x42]) = false := by decide +kernel

/-- Under each strap a buffer with a payload of 2 bytes, and destinations on both sides of the limit. -/
theorem witness_FrmDecodeDeliversThePayload :
    scanLoop ((withBytes .crc 0xFFFA [0x7B, 0x41, 0x42, 0x41, 0x42, 0x7D]).mem.readBytes 0xFFFA 6) =
      .ok [0x41, 0x42, 0x41, 0x42] 6 ∧ crcOk (bits [0x41, 0x42, 0x41, 0x42]) = true ∧
    scanLoop ((withBytes .ham 0xFFFA [0x7B, 0x5C, 0x7B, 0x41, 0x10, 0x7D]).mem.readBytes 0xFFFA 6) =
      .ok ([0x7B, 0x41] ++ [0x10]) 6 ∧
    (0xFFFA : Word16).toNat + (6 : Word16).toNat ≤ 65536 ∧
    (0xFFFE : Word16).toNat + 2 ≤ 65536 ∧ 65536 < (0xFFFF : Word16).toNat + 2 := by decide +kernel

theorem witness_FrmSendAppendsOneFramePerChunk : (0 : Word16).toNat + (65535 : Word16).toNat ≤ 65536 ∧
    (0xFFFF : Word16).toNat + (0 : Word16).toNat ≤ 65536 ∧ 65536 < (2 : Word16).toNat + (65535 : Word16).toNat := by
  decide

theorem witness_WireBytesFollowTheParserTable :
    State.reset.parser = ⟨.start, [], 0⟩ ∧
    { State.reset with parser := ⟨.data, [0x41], 2⟩ }.parser = ⟨.data, [0x41], 2⟩ ∧
    { State.reset with parser := ⟨.esc, [], 2⟩ }.parser = ⟨.esc, [], 2⟩ ∧
    { State.reset with parser := ⟨.done, [], 2⟩ }.parser.phase = .done ∧
    { State.reset with parser := ⟨.missingStart, [], 1⟩ }.parser.phase = .missingStart ∧
    (Instr.wireData 0x5B).wellFormed = true := by decide

/-- R232's example with every tag value. -/
theorem test_esc : esc [0x7B, 0x7D, 0x5C] = [0x5C, 0x7B, 0x5C, 0x7D, 0x5C, 0x5C] ∧ esc [0x41, 0x42] = [0x41, 0x42] ∧
    ntag [0x41, 0x7B, 0x7D, 0x5C] = 3 := by decide

theorem witness_EscapingThenParsingReturnsTheBytes : (esc [0x7B, 0x7D])[1]? = some 0x7B ∧
    (esc [0x7B, 0x7D])[3]? = some 0x7D ∧ (∀ x ∈ ([0x7B, 0x5B] : List Byte), x ≠ 0x5C ∧ x ≠ 0x7D) ∧
    isComplete [0x7B, 0x7D] = true ∧ ([0x7B, 0x7D] : List Byte).head? = some 0x7B := by decide

theorem witness_FrameRoundTripIffTrailerSafe : 1 ≤ ([0x5C] : List Byte).length ∧ (List.replicate 8 (0x41 : Byte)).length
    ≤ 8 := by decide

theorem witness_CompletenessOfTrailerSafeFrames : 1 ≤ ([0x7B, 0x41] : List Byte).length ∧
    ([0x7B, 0x41] : List Byte).length ≤ 8 ∧ TrailerSafe .crc [0x7B, 0x41] ∧ TrailerSafe .ham [0x7B, 0x41] ∧
    6 < (frame .crc [0x7B, 0x41]).length := by
  refine ⟨by decide, by decide, ?_, ?_, by decide +kernel⟩ <;> unfold TrailerSafe <;> decide +kernel

/-- The one byte 41 at address 0x10, its frame at the end of MEM, the payload on the last byte. -/
theorem witness_EncodeThenDecodeRestoresTheChunk :
    1 ≤ (1 : Word16).toNat ∧ (1 : Word16).toNat ≤ 8 ∧ (0x10 : Word16).toNat + (1 : Word16).toNat ≤ 65536 ∧
    (0xFFFC : Word16).toNat +
      (frame (withBytes .ham 0x10 [0x41]).scheme ((withBytes .ham 0x10 [0x41]).mem.readBytes 0x10 1)).length ≤ 65536 ∧
    (0xFFFF : Word16).toNat + (1 : Word16).toNat ≤ 65536 ∧
    TrailerSafe (withBytes .ham 0x10 [0x41]).scheme ((withBytes .ham 0x10 [0x41]).mem.readBytes 0x10 1) := by
  unfold TrailerSafe
  decide +kernel

theorem witness_SentMessageDecodesBack :
    (0x0100 : Word16).toNat + (9 : Word16).toNat ≤ 65536 ∧
    ∀ P ∈ chunks ((withBytes .crc 0x0100 [1, 2, 3, 4, 5, 6, 7, 8, 9]).mem.readBytes 0x0100 9),
      TrailerSafe (withBytes .crc 0x0100 [1, 2, 3, 4, 5, 6, 7, 8, 9]).scheme P := by
  unfold TrailerSafe
  decide +kernel

theorem witness_ShortChunksAndTrailerSafety : 1 ≤ ([0xFF] : List Byte).length ∧
    (List.replicate 7 (0xFF : Byte)).length ≤ 7 := by decide

theorem witness_NonStoringCommandsFrame : isCommand (.hamVerify .v1 .vg) = true ∧
    writesMem (.hamVerify .v1 .vg) = false ∧ ∃ t, exec (.hamVerify .v1 .vg) State.reset = .next t := ⟨rfl, rfl, _, rfl⟩

theorem witness_StoringCommandsFrame : (∃ t, exec (.bvStore .vg 0xFFFD) State.reset = .next t) ∧
    ∃ t, exec (.frmEncode 0 1 0xFFFB) State.reset = .next t := ⟨⟨_, rfl⟩, _, rfl⟩

theorem witness_FrmDecodeFrame : ∃ t, exec (.frmDecode 0x0200 6 0xFFFE)
    (withBytes .ham 0x0200 [0x7B, 0x5C, 0x7B, 0x41, 0x10, 0x7D]) = .next t ∧ t.err = 0 := by
  refine ⟨_, rfl, ?_⟩
  decide +kernel

theorem witness_WireBytesFrame : isCommand (.wireData 0x41) = false ∧
    ∃ t, exec (.wireData 0x41) State.reset = .next t := ⟨rfl, _, rfl⟩

end Sys2Proof.Tests
end

namespace Sys2Proof.Machine

/-! ## The effect of an instruction

`exec` is described once, by `exec_hasEffect`: what an instruction writes is an `Effect`, the same for every two states
that agree on what the instruction may read (`Agree`), and inside what its rule lets it write (`Effect.Allowed`). The
invariant, the frames and the independence statements are read off this description. -/

/-- What an instruction writes; a component at its default is left alone. -/
structure Effect where
  /-- the destination register and its new value -/
  dest : Option (VReg × Bits) := none
  status : Option Word16 := none
  res : Option Word16 := none
  rlen : Option Word16 := none
  synd : Option Byte := none
  /-- DIAG after the instruction, from DIAG before it -/
  diag : Byte → Byte := id
  /-- the entries appended to tx_log -/
  sent : List (List Byte) := []
  /-- where `stored` goes in MEM -/
  addr : Nat := 0
  stored : List Byte := []
  /-- the bytes the kept parser reads -/
  heard : List Byte := []

namespace Effect

/-- The state with the destination register written. -/
def bank (e : Effect) (s : State) : State :=
  match e.dest with
  | none => s
  | some (r, v) => s.writeV r v

/-- The state after the effect. -/
def apply (e : Effect) (s : State) : State :=
  { e.bank s with
    status := e.status.getD s.status
    res := e.res.getD s.res
    rlen := e.rlen.getD s.rlen
    synd := e.synd.getD s.synd
    diag := e.diag s.diag
    txLog := s.txLog ++ e.sent
    mem := s.mem.writeBytes e.addr e.stored
    parser := e.heard.foldl Parser.read s.parser }

@[simp] theorem bank_of_dest_none (e : Effect) (s : State) (h : e.dest = none) : e.bank s = s := by simp [bank, h]

@[simp] theorem apply_readV (e : Effect) (s : State) (r : VReg) : (e.apply s).readV r = (e.bank s).readV r :=
  State.readV_congr rfl rfl rfl rfl r

theorem bank_readV_of_ne (e : Effect) (s : State) (r : VReg) (h : ∀ v, e.dest ≠ some (r, v)) :
    (e.bank s).readV r = s.readV r := by
  unfold bank
  split
  · rfl
  · next r' v hd => exact State.readV_writeV_other _ _ _ _ fun hr => h v (hr ▸ hd)

theorem bank_readV_congr (e : Effect) {s s' : State} (h : ∀ r, s'.readV r = s.readV r) (r : VReg) :
    (e.bank s').readV r = (e.bank s).readV r := by
  unfold bank
  split
  · exact h r
  · simp only [State.readV_writeV, h r]

@[simp] theorem apply_cfg (e : Effect) (s : State) : (e.apply s).cfg = s.cfg := by
  simp only [apply, bank]; split <;> simp

@[simp] theorem apply_host (e : Effect) (s : State) : (e.apply s).host = s.host := by
  simp only [apply, bank]; split <;> simp

@[simp] theorem apply_scheme (e : Effect) (s : State) : (e.apply s).scheme = s.scheme :=
  State.scheme_congr (e.apply_cfg s)

theorem apply_with_cfg (e : Effect) (s : State) (c : Word16) :
    e.apply { s with cfg := c } = { e.apply s with cfg := c } := by
  cases hd : e.dest with
  | none => simp [apply, bank, hd]
  | some w => cases hr : w.1 <;> simp [apply, bank, hd, hr, State.writeV]

/-- The frame of a store: bytes outside the stored range read as before. -/
theorem apply_mem_outside (e : Effect) (s : State) (a : Nat) (h : a < e.addr ∨ e.addr + e.stored.length ≤ a) :
    (e.apply s).mem.read a = s.mem.read a :=
  Memory.read_writeBytes_outside _ _ _ _ h

theorem apply_mem_of_stored_nil (e : Effect) (s : State) (h : e.stored = []) : (e.apply s).mem = s.mem := by
  simp only [apply, h]; rfl

/-- Success: STATUS reports no error, with the class of the correction if there was one. -/
abbrev success (cls : HamClass := .noError) : Effect := { status := some (statusWord 0 cls) }

/-- A refusal with the given code. -/
abbrev refusal (c : RefuseCode) : Effect :=
  { status := some (statusWord c.code .noError), diag := (orDiag · diagRefused) }

/-- A failed check of the given kind, with the results recorded. -/
abbrev failure (k : ErrKind) (res rlen : Option Word16 := none) : Effect :=
  { status := some (statusWord k.code .noError), res, rlen, diag := (orDiag · k.diagBit) }

/-- A finished correction: SYND, the class, and DIAG.HAM_SYNDROME if the syndrome is not 0. -/
abbrev correction (syn : Byte) (cls : HamClass) : Effect :=
  { success cls with
    synd := some syn
    diag := fun d => if syn = 0 then d else orDiag d diagHamSyndrome }

/-- What the storing commands may store, and where; FRM_DECODE reports the number of bytes in RLEN and no error. -/
def StoresBy (e : Effect) (s : State) : Instr → Prop
  | .bvStore rs addr => e.addr = addr.toNat ∧ e.stored = bytes (s.readSrc rs)
  | .frmEncode src n dst =>
    e.addr = dst.toNat ∧ e.stored = frame s.scheme (s.mem.readBytes src.toNat n.toNat)
  | .frmDecode _ _ dst =>
    e.addr = dst.toNat ∧ e.stored.length < 65536 ∧ e.rlen = some (count16 e.stored.length) ∧
      ∃ cls, e.status = some (statusWord 0 cls)
  | _ => False

/-- The change of DIAG stays inside the bits the rule of `i` names, and leaves bit 7 at 0 (10_state.md R45). -/
def KeepsDiag (i : Instr) (f : Byte → Byte) : Prop :=
  ∀ d, (∀ k, k ∉ diagBitsOf i → (f d).getLsbD k = d.getLsbD k) ∧ (d.getLsbD 7 = false → (f d).getLsbD 7 = false)

theorem keepsDiag_id (i : Instr) : KeepsDiag i id := fun _ => ⟨fun _ _ => rfl, id⟩

theorem keepsDiag_orDiag {i : Instr} {b : Nat} (hb : b ∈ diagBitsOf i) (h7 : b < 7) : KeepsDiag i (orDiag · b) := by
  refine fun d => ⟨fun k hk => ?_, fun hd => ?_⟩
  · have hne : k ≠ b := fun h => hk (h ▸ hb)
    simp only [orDiag_getLsbD d b k (by omega), hne, decide_false, Bool.or_false]
  · have hne : 7 ≠ b := by omega
    simp only [orDiag_getLsbD d b 7 (by omega), hd, hne, decide_false, Bool.or_false]

theorem keepsDiag_correction {i : Instr} (hb : diagHamSyndrome ∈ diagBitsOf i) (syn : Byte) (cls : HamClass) :
    KeepsDiag i (correction syn cls).diag := by
  by_cases h : syn = 0
  · simp only [h, if_true]; exact keepsDiag_id i
  · simp only [h, if_false]; exact keepsDiag_orDiag hb (by decide)

/-- From `s` the effect stays inside what the rule of `i` names (10_state.md R42 to R52) and respects the bounds of
the invariant. A success has the defaults. -/
structure Allowed (i : Instr) (s : State) (e : Effect) : Prop where
  dest : ∀ r v, e.dest = some (r, v) → destOf i = some r := by nofun
  capacity : (∀ r, (s.readV r).length ≤ Config.bvCap) →
    ∀ r v, e.dest = some (r, v) → v.length ≤ Config.bvCap := by nofun
  statusWritten : e.status.isSome = isCommand i := by rfl
  statusLegal : ∀ st, e.status = some st → LegalStatus st := by rintro _ ⟨⟩; exact .inl ⟨_, rfl⟩
  res : writesRes i = false → e.res = none := by simp [writesRes]
  rlen : writesRlen i = false → e.rlen = none := by simp [writesRlen]
  synd : writesSynd i = false → e.synd = none := by simp [writesSynd]
  diag : KeepsDiag i e.diag := by exact Effect.keepsDiag_id _
  sent : writesTxLog i = false → e.sent = [] := by intro _; rfl
  sentFrames : ∀ F ∈ e.sent, ∃ P : List Byte,
    1 ≤ P.length ∧ P.length ≤ Config.maxChunk ∧ F = frame s.scheme P := by nofun
  stored : e.stored = [] ∨ e.StoresBy s i := by exact .inl rfl
  storedInMem : e.addr + e.stored.length ≤ Config.memSize := by exact Nat.zero_le _
  heard : isCommand i = true → e.heard = [] := by intro _; rfl

end Effect

/-- The two states agree on all that `i` may read: the bank unless `i` is a framing command (10_state.md R35), SCHEME
for the three commands that use it (R39), and MEM. -/
structure Agree (i : Instr) (s s' : State) : Prop where
  bank : isFraming i = false → ∀ r, s'.readV r = s.readV r
  scheme : usesScheme i = true → s'.scheme = s.scheme
  mem : s'.mem = s.mem

theorem Agree.refl (i : Instr) (s : State) : Agree i s s := ⟨fun _ _ => rfl, fun _ => rfl, rfl⟩

/-- A framing command reads no register, so any two banks agree for it (10_state.md R35). -/
theorem Agree.with_bank {i : Instr} (hi : isFraming i = true) (s : State) (a b c d : Bits) :
    Agree i s { s with v0 := a, v1 := b, v2 := c, v3 := d } :=
  ⟨fun h => absurd hi (by simp [h]), fun _ => rfl, rfl⟩

/-- A command that does not use SCHEME reads nothing of CFG (10_state.md R39). -/
theorem Agree.with_cfg {i : Instr} (hi : usesScheme i = false) (s : State) (c : Word16) :
    Agree i s { s with cfg := c } :=
  ⟨fun _ => State.readV_congr rfl rfl rfl rfl, fun h => absurd hi (by simp [h]), rfl⟩

theorem State.readV_with_results (s : State) (st re rl : Word16) (sy : Byte) (r : VReg) :
    State.readV { s with status := st, res := re, rlen := rl, synd := sy } r = s.readV r :=
  State.readV_congr rfl rfl rfl rfl r

/-- No instruction reads STATUS, RES, RLEN or SYND (10_state.md R38). -/
theorem Agree.with_results (i : Instr) (s : State) (st re rl : Word16) (sy : Byte) :
    Agree i s { s with status := st, res := re, rlen := rl, synd := sy } :=
  ⟨fun _ => s.readV_with_results st re rl sy, fun _ => rfl, rfl⟩

theorem Agree.readSrc {i : Instr} {s s' : State} (h : Agree i s s') (hi : isFraming i = false) (rs : VSrc) :
    s'.readSrc rs = s.readSrc rs := by
  cases rs with
  | reg r => exact h.bank hi r
  | vg => rfl

/-- From `s` the instruction has an effect its rule allows, and has it from every state that agrees with `s`. -/
def HasEffect (i : Instr) (s : State) : Prop :=
  ∃ e : Effect, e.Allowed i s ∧ ∀ s', Agree i s s' → exec i s' = .next (e.apply s')

theorem succeed_eq_apply (s : State) : succeed s = .next (Effect.success.apply s) := by
  simp [succeed_eq, Effect.apply, Memory.writeBytes]

theorem refuse_eq_apply (c : RefuseCode) (s : State) : refuse c s = .next ((Effect.refusal c).apply s) := by
  simp [refuse, Effect.apply, Memory.writeBytes]

/-- A refusal is an effect of every command that can raise REFUSED (60_exceptions.md R296). -/
theorem HasEffect.of_refuse {i : Instr} {s : State} (c : RefuseCode)
    (h : ∀ s', Agree i s s' → exec i s' = refuse c s') (hi : isCommand i = true := by rfl)
    (h6 : diagRefused ∈ diagBitsOf i := by simp [diagBitsOf, diagRefused]) : HasEffect i s := by
  refine ⟨.refusal c, ?_, fun s' hs => (h s' hs).trans (refuse_eq_apply c s')⟩
  exact {
    statusWritten := hi.symm
    statusLegal := by rintro _ ⟨⟩; exact .inr (.inr ⟨c, rfl⟩)
    diag := Effect.keepsDiag_orDiag h6 (by decide) }

theorem ErrKind.diagBit_lt (k : ErrKind) : k.diagBit < 7 := by cases k <;> decide

/-- A failed check is an effect of every command that can raise its DIAG bit, with results the command may record
(60_exceptions.md R297). -/
theorem HasEffect.of_fail {i : Instr} {s : State} (k : ErrKind) (res rlen : Option Word16)
    (h : ∀ s', Agree i s s' → exec i s' = fail k { s' with res := res.getD s'.res, rlen := rlen.getD s'.rlen })
    (hk : k.diagBit ∈ diagBitsOf i) (hi : isCommand i = true := by rfl)
    (hres : writesRes i = false → res = none := by simp [writesRes])
    (hrlen : writesRlen i = false → rlen = none := by simp [writesRlen]) : HasEffect i s := by
  refine ⟨.failure k res rlen, ?_, fun s' hs => (h s' hs).trans (by simp [fail, Effect.apply, Memory.writeBytes])⟩
  exact {
    statusWritten := hi.symm
    statusLegal := by rintro _ ⟨⟩; exact .inr (.inl ⟨k, rfl⟩)
    res := hres
    rlen := hrlen
    diag := Effect.keepsDiag_orDiag hk k.diagBit_lt }

/-- The end of a successful command that writes a register and nothing else but STATUS. -/
theorem HasEffect.of_writeV {i : Instr} {s : State} (rd : VReg) (v : Bits)
    (hv : (∀ r, (s.readV r).length ≤ Config.bvCap) → v.length ≤ Config.bvCap)
    (h : ∀ s', Agree i s s' → exec i s' = succeed (s'.writeV rd v)) (hi : isCommand i = true := by rfl)
    (hd : destOf i = some rd := by rfl) : HasEffect i s := by
  refine ⟨{ Effect.success with dest := some (rd, v) }, ?_, fun s' hs => (h s' hs).trans ?_⟩
  · exact {
      dest := by rintro _ _ ⟨⟩; exact hd
      capacity := by rintro hs _ _ ⟨⟩; exact hv hs
      statusWritten := hi.symm }
  · simp [succeed_eq, Effect.apply, Effect.bank, Memory.writeBytes]

/-- The end of a successful command that writes RES and nothing else but STATUS. -/
theorem HasEffect.of_res {i : Instr} {s : State} (x : Word16)
    (h : ∀ s', Agree i s s' → exec i s' = succeed { s' with res := x }) (hi : isCommand i = true := by rfl)
    (hr : writesRes i = true := by rfl) : HasEffect i s := by
  refine ⟨{ Effect.success with res := some x }, ?_, fun s' hs => (h s' hs).trans ?_⟩
  · exact {
      statusWritten := hi.symm
      res := fun h => absurd hr (by simp [h]) }
  · simp [succeed_eq, Effect.apply, Memory.writeBytes]

/-- A correction command that gets as far as the correction. -/
theorem HasEffect.of_finishCorrection {i : Instr} {s : State} (rd : VReg) (r : Bits × Byte × HamClass)
    (hv : (∀ r, (s.readV r).length ≤ Config.bvCap) → r.1.length ≤ Config.bvCap)
    (h : ∀ s', Agree i s s' → exec i s' = finishCorrection rd r s') (hi : isCommand i = true := by rfl)
    (hd : destOf i = some rd := by rfl) (hr : writesRes i = true := by rfl) (hsy : writesSynd i = true := by rfl)
    (h2 : diagHamSyndrome ∈ diagBitsOf i := by simp [diagBitsOf, diagHamSyndrome]) : HasEffect i s := by
  refine ⟨{ Effect.correction r.2.1 r.2.2 with dest := some (rd, r.1), res := some (r.2.1.setWidth 16) }, ?_,
    fun s' hs => (h s' hs).trans ?_⟩
  · exact {
      dest := by rintro _ _ ⟨⟩; exact hd
      capacity := by rintro hs _ _ ⟨⟩; exact hv hs
      statusWritten := hi.symm
      res := fun h => absurd hr (by simp [h])
      synd := fun h => absurd hsy (by simp [h])
      diag := Effect.keepsDiag_correction h2 r.2.1 r.2.2 }
  · simp [finishCorrection, succeedHam, Effect.apply, Effect.bank, Memory.writeBytes]

theorem length_readSrc_le {s : State} (h : ∀ r, (s.readV r).length ≤ Config.bvCap) (rs : VSrc) :
    (s.readSrc rs).length ≤ Config.bvCap := by
  cases rs with
  | reg r => exact h r
  | vg => simp [Config.bvCap]

/-! ### System and bit-vector commands -/

theorem hasEffect_nop (s : State) : HasEffect .nop s :=
  ⟨.success, {}, fun s' _ => succeed_eq_apply s'⟩

theorem hasEffect_diagClr (s : State) : HasEffect .diagClr s := by
  refine ⟨{ Effect.success with diag := fun _ => 0 }, ?_, fun s' _ => ?_⟩
  · exact {
      diag := fun d => by
        refine ⟨fun k hk => ?_, fun _ => by simp⟩
        have h8 : 8 ≤ k := by simp [diagBitsOf] at hk; omega
        simp [BitVec.getLsbD_of_ge d k h8] }
  · simp [exec, execDiagClr, succeed_eq, Effect.apply, Memory.writeBytes]

theorem hasEffect_bvClr (s : State) (rd : VReg) : HasEffect (.bvClr rd) s :=
  .of_writeV rd [] (fun _ => Nat.zero_le _) fun _ _ => rfl

theorem hasEffect_bvGet (s : State) (rs : VSrc) (idx : Word16) : HasEffect (.bvGet rs idx) s :=
  .of_res (if getBit (s.readSrc rs) idx.toNat then 1 else 0) fun s' hs => by
    simp only [exec, execBvGet, hs.readSrc rfl]

theorem hasEffect_bvSet (s : State) (rd : VReg) (idx : Word16) (bit : Bool) : HasEffect (.bvSet rd idx bit) s := by
  by_cases h : Config.bvCap ≤ idx.toNat
  · exact .of_refuse .bvOverflow fun s' _ => if_pos h
  · refine .of_writeV rd (setBit (s.readV rd) idx.toNat bit) (fun hs => ?_) fun s' hs => ?_
    · have := hs rd
      rw [length_setBit]; omega
    · simp only [exec, execBvSet, if_neg h, hs.bank rfl]

theorem hasEffect_bvLoad (s : State) (rd : VReg) (addr n : Addr) : HasEffect (.bvLoad rd addr n) s := by
  cases hm : inMem addr.toNat n.toNat
  · exact .of_refuse .addrRange fun s' _ => by simp [exec, execBvLoad, hm]
  by_cases hc : Config.bvCap < 8 * n.toNat
  · exact .of_refuse .bvOverflow fun s' _ => by simp [exec, execBvLoad, hm, hc]
  · refine .of_writeV rd (bits (s.mem.readBytes addr.toNat n.toNat)) (fun _ => ?_) fun s' hs => ?_
    · simpa using hc
    · simp [exec, execBvLoad, hm, hc, hs.mem]

theorem hasEffect_bvStore (s : State) (rs : VSrc) (addr : Addr) : HasEffect (.bvStore rs addr) s := by
  cases hm : inMem addr.toNat (bytes (s.readSrc rs)).length
  · exact .of_refuse .addrRange fun s' hs => by
      simp only [exec, execBvStore, hs.readSrc rfl, hm, Bool.not_false, if_true]
  · refine ⟨{ Effect.success with
      rlen := some (count16 (bytes (s.readSrc rs)).length), addr := addr.toNat, stored := bytes (s.readSrc rs) }, ?_,
      fun s' hs => ?_⟩
    · exact { stored := .inr ⟨rfl, rfl⟩, storedInMem := (inMem_iff _ _).mp hm }
    · simp only [exec, execBvStore, hs.readSrc rfl, hm]
      simp [succeed_eq, Effect.apply]

theorem hasEffect_bvXor (s : State) (rd : VReg) (rs : VSrc) (off : Word16) : HasEffect (.bvXor rd rs off) s := by
  by_cases h : 0 < (s.readSrc rs).length ∧ Config.bvCap < off.toNat + (s.readSrc rs).length
  · exact .of_refuse .bvOverflow fun s' hs => by
      simp only [exec, execBvXor, hs.readSrc rfl, if_pos h]
  · refine .of_writeV rd (xorAt (s.readV rd) (s.readSrc rs) off.toNat) (fun hs => ?_) fun s' hs => ?_
    · have := hs rd
      rw [length_xorAt]
      split <;> omega
    · simp only [exec, execBvXor, hs.readSrc rfl, hs.bank rfl, if_neg h]

/-! ### CRC and Hamming commands -/

theorem hasEffect_crcDiv (s : State) (rd : VReg) (rs : VSrc) : HasEffect (.crcDiv rd rs) s :=
  .of_writeV rd (polydiv (s.readSrc rs)) (fun hs => by simpa using length_readSrc_le hs rs) fun s' hs => by
    simp only [exec, execCrcDiv, hs.readSrc rfl]

theorem hasEffect_crcRem (s : State) (rs : VSrc) : HasEffect (.crcRem rs) s :=
  .of_res (BitVec.ofNat 16 (bitsToNat (crcRem (s.readSrc rs)))) fun s' hs => by
    simp only [exec, execCrcRem, hs.readSrc rfl]

theorem hasEffect_crcAppend (s : State) (rd : VReg) (rs : VSrc) : HasEffect (.crcAppend rd rs) s := by
  by_cases h : Config.bvCap < (s.readSrc rs).length + Config.crcLen
  · exact .of_refuse .bvOverflow fun s' hs => by
      simp only [exec, execCrcAppend, hs.readSrc rfl, if_pos h]
  · refine .of_writeV rd (crcAppend (s.readSrc rs)) (fun _ => ?_) fun s' hs => ?_
    · simpa [Config.crcLen] using h
    · simp only [exec, execCrcAppend, hs.readSrc rfl, if_neg h]

theorem hasEffect_crcVerify (s : State) (rs : VSrc) : HasEffect (.crcVerify rs) s := by
  cases h : crcOk (s.readSrc rs)
  · exact .of_fail .crcMismatch (some 0) none (fun s' hs => by simp [exec, execCrcVerify, hs.readSrc rfl, h])
      (by simp [ErrKind.diagBit, diagBitsOf])
  · exact .of_res 1 fun s' hs => by simp [exec, execCrcVerify, hs.readSrc rfl, h]

theorem hasEffect_hamParity (s : State) (rs : VSrc) : HasEffect (.hamParity rs) s := by
  by_cases h : Config.hamMaxData < (s.readSrc rs).length
  · exact .of_refuse .hamRange fun s' hs => by
      simp only [exec, execHamParity, hs.readSrc rfl, if_pos h]
  · exact .of_res ((hamParity (s.readSrc rs)).setWidth 16) fun s' hs => by
      simp only [exec, execHamParity, hs.readSrc rfl, if_neg h]

theorem hasEffect_hamCorrect (s : State) (rd : VReg) (par : Byte) : HasEffect (.hamCorrect rd par) s := by
  by_cases h : Config.hamMaxData < (s.readV rd).length
  · exact .of_refuse .hamRange fun s' hs => by
      simp only [exec, execHamCorrect, hs.bank rfl, if_pos h]
  · refine .of_finishCorrection rd (hamCorrect (s.readV rd) par) (fun hs => ?_) fun s' hs => ?_
    · simpa using hs rd
    · simp only [exec, execHamCorrect, hs.bank rfl, if_neg h]

theorem hasEffect_hamAppend (s : State) (rd : VReg) (rs : VSrc) : HasEffect (.hamAppend rd rs) s := by
  by_cases h : Config.hamMaxData < (s.readSrc rs).length
  · exact .of_refuse .hamRange fun s' hs => by
      simp only [exec, execHamAppend, hs.readSrc rfl, if_pos h]
  · refine .of_writeV rd (s.readSrc rs ++ byteBits (hamParity (s.readSrc rs))) (fun _ => ?_) fun s' hs => ?_
    · simp only [Config.hamMaxData] at h
      simp only [List.length_append, length_byteBits, Config.bvCap]; omega
    · simp only [exec, execHamAppend, hs.readSrc rfl, if_neg h]

theorem hasEffect_hamVerify (s : State) (rd : VReg) (rs : VSrc) : HasEffect (.hamVerify rd rs) s := by
  by_cases h : Config.hamMaxData + Config.hamBits < (s.readSrc rs).length
  · exact .of_refuse .hamRange fun s' hs => by
      simp only [exec, execHamVerify, hs.readSrc rfl, if_pos h]
  by_cases h8 : (s.readSrc rs).length < Config.hamBits
  · exact .of_fail .tooShort none none
      (fun s' hs => by simp only [exec, execHamVerify, hs.readSrc rfl, if_neg h, if_pos h8, Option.getD_none])
      (by simp [ErrKind.diagBit, diagBitsOf])
  · refine .of_finishCorrection rd (hamCorrect ((s.readSrc rs).take ((s.readSrc rs).length - Config.hamBits))
      (BitVec.ofNat 8 (bitsToNat ((s.readSrc rs).drop ((s.readSrc rs).length - Config.hamBits)))))
      (fun hs => ?_) fun s' hs => ?_
    · have := length_readSrc_le hs rs
      rw [length_hamCorrect, List.length_take]; omega
    · simp only [exec, execHamVerify, hs.readSrc rfl, if_neg h, if_neg h8]

/-! ### Framing commands and wire bytes -/

theorem hasEffect_frmEncode (s : State) (src n dst : Addr) : HasEffect (.frmEncode src n dst) s := by
  by_cases hn : n.toNat = 0 ∨ Config.maxChunk < n.toNat
  · exact .of_refuse .chunkLength fun s' _ => if_pos hn
  cases hs : inMem src.toNat n.toNat
  · exact .of_refuse .addrRange fun s' _ => by simp [exec, execFrmEncode, hn, hs]
  cases hd : inMem dst.toNat (frame s.scheme (s.mem.readBytes src.toNat n.toNat)).length
  · exact .of_refuse .addrRange fun s' h => by
      simp only [exec, execFrmEncode, hn, hs, h.mem, h.scheme rfl, hd, if_false, Bool.not_true, Bool.not_false]
      rfl
  · refine ⟨{ Effect.success with
      rlen := some (count16 (frame s.scheme (s.mem.readBytes src.toNat n.toNat)).length), addr := dst.toNat
      stored := frame s.scheme (s.mem.readBytes src.toNat n.toNat) }, ?_, fun s' h => ?_⟩
    · exact { stored := .inr ⟨rfl, rfl⟩, storedInMem := (inMem_iff _ _).mp hd }
    · simp only [exec, execFrmEncode, hn, hs, h.mem, h.scheme rfl, hd, if_false, Bool.not_true]
      simp [succeed_eq, Effect.apply, h.mem]

theorem hasEffect_frmComplete (s : State) (src n : Addr) : HasEffect (.frmComplete src n) s := by
  cases hm : inMem src.toNat n.toNat
  · exact .of_refuse .addrRange fun s' _ => by simp [exec, execFrmComplete, hm]
  · exact .of_res (if isComplete (s.mem.readBytes src.toNat n.toNat) then 1 else 0) fun s' hs => by
      simp [exec, execFrmComplete, hm, hs.mem]

/-- Delivering a payload that lies in MEM and is shorter than MEM. -/
theorem hasEffect_of_deliverPayload {s : State} {src n dst : Addr} (P : List Byte) (consumed : Nat)
    (ham : Option (Byte × HamClass)) (hP : P.length < 65536) (hm : dst.toNat + P.length ≤ Config.memSize)
    (h : ∀ s', Agree (.frmDecode src n dst) s s' →
      exec (.frmDecode src n dst) s' = deliverPayload dst P consumed ham s') : HasEffect (.frmDecode src n dst) s := by
  cases ham with
  | none =>
    refine ⟨{ Effect.success with
      res := some (count16 consumed), rlen := some (count16 P.length), addr := dst.toNat, stored := P }, ?_,
      fun s' hs => (h s' hs).trans ?_⟩
    · exact { stored := .inr ⟨rfl, hP, rfl, _, rfl⟩, storedInMem := hm }
    · simp [deliverPayload_none, Effect.apply]
  | some c =>
    have h2 : diagHamSyndrome ∈ diagBitsOf (.frmDecode src n dst) := by simp [diagHamSyndrome, diagBitsOf]
    refine ⟨{ Effect.correction c.1 c.2 with
      res := some (count16 consumed), rlen := some (count16 P.length), addr := dst.toNat, stored := P }, ?_,
      fun s' hs => (h s' hs).trans ?_⟩
    · exact {
        stored := .inr ⟨rfl, hP, rfl, _, rfl⟩
        storedInMem := hm
        diag := Effect.keepsDiag_correction h2 c.1 c.2 }
    · simp [deliverPayload, succeedHam, Effect.apply]

/-- The parser copies at most one byte per byte read (43_framing.md R237). -/
theorem Parser.length_copy_read (p : Parser) (x : Byte) : (p.read x).copy.length ≤ p.copy.length + 1 := by
  obtain ⟨phase, copy, index⟩ := p
  cases phase <;> simp only [Parser.read] <;> (repeat' split) <;> simp

theorem Parser.length_copy_foldl_read (B : List Byte) (p : Parser) :
    (B.foldl Parser.read p).copy.length ≤ p.copy.length + B.length := by
  induction B generalizing p with
  | nil => simp
  | cons x B ih =>
    have hx := p.length_copy_read x
    have hB := ih (p.read x)
    simp only [List.foldl_cons, List.length_cons]
    omega

/-- A scanned copy is no longer than its buffer (43_framing.md R238). -/
theorem length_copy_of_scan {B copy : List Byte} {consumed : Nat} (h : scan B = .ok copy consumed) :
    copy.length ≤ B.length := by
  have hle := Parser.length_copy_foldl_read B Parser.fresh
  unfold scan Parser.verdict at h
  split at h <;> cases h
  simpa [Parser.fresh] using hle

/-- Steps 4 to 8 of FRM_DECODE for a copy shorter than MEM (43_framing.md R243). -/
theorem hasEffect_of_decodeCopy {s : State} {src n dst : Addr} (copy : List Byte) (consumed : Nat)
    (hlen : copy.length < 65536) (h : ∀ s', Agree (.frmDecode src n dst) s s' →
      exec (.frmDecode src n dst) s' = decodeCopy dst copy consumed s') : HasEffect (.frmDecode src n dst) s := by
  by_cases hshort : copy.length < Config.trailerLen s.scheme
  · exact .of_fail .tooShort (some (count16 consumed)) (some 0)
      (fun s' hs => by simp only [h s' hs, decodeCopy, hs.scheme rfl, if_pos hshort, Option.getD_some])
      (by simp [ErrKind.diagBit, diagBitsOf])
  by_cases hlong : s.scheme = .ham ∧ Config.hamMaxData < 8 * (copy.length - 1)
  · exact .of_refuse .hamRange fun s' hs => by
      simp only [h s' hs, decodeCopy, hs.scheme rfl, if_neg hshort, if_pos hlong]
  cases hc : checkCopy s.scheme copy with
  | corrupt =>
    exact .of_fail .crcMismatch (some (count16 consumed)) (some 0)
      (fun s' hs => by
        simp only [h s' hs, decodeCopy, hs.scheme rfl, if_neg hshort, if_neg hlong, hc, Option.getD_some])
      (by simp [ErrKind.diagBit, diagBitsOf])
  | payload P ham =>
    cases hm : inMem dst.toNat P.length
    · exact .of_refuse .addrRange fun s' hs => by
        simp [h s' hs, decodeCopy, hs.scheme rfl, if_neg hshort, if_neg hlong, hc, hm]
    · refine hasEffect_of_deliverPayload P consumed ham ((checkCopy_length hc).trans_lt hlen) ((inMem_iff _ _).mp hm)
        fun s' hs => ?_
      simp [h s' hs, decodeCopy, hs.scheme rfl, if_neg hshort, if_neg hlong, hc, hm]

theorem hasEffect_frmDecode (s : State) (src n dst : Addr) : HasEffect (.frmDecode src n dst) s := by
  cases hm : inMem src.toNat n.toNat
  · exact .of_refuse .addrRange fun s' _ => by simp [exec, execFrmDecode, hm]
  cases hscan : scan (s.mem.readBytes src.toNat n.toNat) with
  | fail k =>
    exact .of_fail k (some 0) (some 0) (fun s' hs => by simp [exec, execFrmDecode, hm, hs.mem, hscan])
      (by cases k <;> simp [ErrKind.diagBit, diagBitsOf])
  | ok copy consumed =>
    have hlen := length_copy_of_scan hscan
    rw [Memory.length_readBytes] at hlen
    exact hasEffect_of_decodeCopy copy consumed (hlen.trans_lt (addr_lt n)) fun s' hs => by
      simp [exec, execFrmDecode, hm, hs.mem, hscan]

theorem hasEffect_frmSend (s : State) (src n : Addr) : HasEffect (.frmSend src n) s := by
  cases hm : inMem src.toNat n.toNat
  · exact .of_refuse .addrRange fun s' _ => by simp [exec, execFrmSend, hm]
  · refine ⟨{ Effect.success with
      rlen := some (count16 (chunkCount n.toNat))
      sent := (chunks (s.mem.readBytes src.toNat n.toNat)).map (frame s.scheme) }, ?_, fun s' hs => ?_⟩
    · refine { sent := nofun, sentFrames := fun F hF => ?_ }
      obtain ⟨P, hP, rfl⟩ := List.mem_map.mp hF
      obtain ⟨h1, h8⟩ := length_of_mem_chunks _ P hP
      exact ⟨P, h1, h8, rfl⟩
    · simp [exec, execFrmSend, hm, hs.mem, hs.scheme rfl, succeed_eq, Effect.apply, Memory.writeBytes]

/-- A wire byte is read by the kept parser, whatever the state. -/
theorem exec_eq_readWireByte {i : Instr} (hi : isCommand i = false) : ∃ x, ∀ s, exec i s = readWireByte x s := by
  cases i with
  | wireStart | wireStop | wireEsc | wireData _ => exact ⟨_, fun _ => rfl⟩
  | _ => cases hi

theorem hasEffect_of_wire {i : Instr} (hi : isCommand i = false) (s : State) : HasEffect i s := by
  obtain ⟨x, hx⟩ := exec_eq_readWireByte hi
  refine ⟨{ heard := [x] }, ?_, fun s' _ => (hx s').trans ?_⟩
  · exact {
      statusWritten := hi.symm
      statusLegal := nofun
      heard := fun h => absurd h (by simp [hi]) }
  · simp [readWireByte, Effect.apply, Memory.writeBytes]

/-- The description of `exec`, for every instruction and every state. -/
theorem exec_hasEffect (i : Instr) (s : State) : HasEffect i s := by
  cases i with
  | nop => exact hasEffect_nop s
  | diagClr => exact hasEffect_diagClr s
  | bvClr rd => exact hasEffect_bvClr s rd
  | bvGet rs idx => exact hasEffect_bvGet s rs idx
  | bvSet rd idx bit => exact hasEffect_bvSet s rd idx bit
  | bvLoad rd addr n => exact hasEffect_bvLoad s rd addr n
  | bvStore rs addr => exact hasEffect_bvStore s rs addr
  | bvXor rd rs off => exact hasEffect_bvXor s rd rs off
  | crcDiv rd rs => exact hasEffect_crcDiv s rd rs
  | crcRem rs => exact hasEffect_crcRem s rs
  | crcAppend rd rs => exact hasEffect_crcAppend s rd rs
  | crcVerify rs => exact hasEffect_crcVerify s rs
  | hamParity rs => exact hasEffect_hamParity s rs
  | hamCorrect rd par => exact hasEffect_hamCorrect s rd par
  | hamAppend rd rs => exact hasEffect_hamAppend s rd rs
  | hamVerify rd rs => exact hasEffect_hamVerify s rd rs
  | frmEncode src n dst => exact hasEffect_frmEncode s src n dst
  | frmComplete src n => exact hasEffect_frmComplete s src n
  | frmDecode src n dst => exact hasEffect_frmDecode s src n dst
  | frmSend src n => exact hasEffect_frmSend s src n
  | wireStart | wireStop | wireEsc | wireData _ => exact hasEffect_of_wire rfl s

/-- What a run of an instruction comes to: an allowed effect, the same from every state that agrees with this one. -/
theorem exec_next {i : Instr} {s t : State} (h : exec i s = .next t) :
    ∃ e : Effect, e.Allowed i s ∧ t = e.apply s ∧ ∀ s', Agree i s s' → exec i s' = .next (e.apply s') := by
  obtain ⟨e, he, hexec⟩ := exec_hasEffect i s
  have ht := (hexec s (.refl i s)).symm.trans h
  exact ⟨e, he, (Host.Outcome.next.inj ht).symm, hexec⟩

theorem destOf_of_isFraming {i : Instr} (hi : isFraming i = true) : destOf i = none := by
  cases i with
  | frmEncode | frmComplete | frmDecode | frmSend => rfl
  | _ => cases hi

/-! ### The frame and the invariant -/

namespace Effect.Allowed

variable {i : Instr} {s : State} {e : Effect}

theorem dest_none (h : e.Allowed i s) (hi : destOf i = none) : e.dest = none := by
  cases hd : e.dest with
  | none => rfl
  | some w => have := h.dest w.1 w.2 hd; simp [hi] at this

theorem status_none (h : e.Allowed i s) (hi : isCommand i = false) : e.status = none := by
  simpa [hi] using h.statusWritten

/-- A byte outside what the rule of the instruction stores reads as before. -/
theorem mem_read (h : e.Allowed i s) (a : Nat)
    (ha : e.StoresBy s i → a < e.addr ∨ e.addr + e.stored.length ≤ a) : (e.apply s).mem.read a = s.mem.read a := by
  rcases h.stored with hnil | hs
  · rw [e.apply_mem_of_stored_nil s hnil]
  · exact e.apply_mem_outside s a (ha hs)

theorem stored_nil (h : e.Allowed i s) (hi : writesMem i = false) : e.stored = [] := by
  refine h.stored.resolve_right fun hs => ?_
  cases i with
  | bvStore _ _ | frmEncode _ _ _ | frmDecode _ _ _ => cases hi
  | _ => exact hs

/-- The frame of an instruction (10_state.md R51). -/
theorem frameKept (h : e.Allowed i s) : FrameKept i s (e.apply s) where
  bank r hr := by
    rw [apply_readV]
    exact e.bank_readV_of_ne s r fun v hd => hr (h.dest r v hd)
  cfg := e.apply_cfg s
  status hi := by simp [apply, h.status_none hi]
  res hi := by simp [apply, h.res hi]
  rlen hi := by simp [apply, h.rlen hi]
  synd hi := by simp [apply, h.synd hi]
  diag k hk := (h.diag s.diag).1 k hk
  txLog hi := by simp [apply, h.sent hi]
  parser hi := by simp [apply, h.heard hi]
  host := e.apply_host s

/-- An allowed effect keeps the invariant. -/
theorem inv (h : e.Allowed i s) (hs : Inv s) : Inv (e.apply s) where
  bankWithinCapacity r := by
    rw [apply_readV]
    by_cases hd : ∃ v, e.dest = some (r, v)
    · obtain ⟨v, hd⟩ := hd
      simpa [bank, hd] using h.capacity hs.bankWithinCapacity r v hd
    · rw [e.bank_readV_of_ne s r fun v hv => hd ⟨v, hv⟩]
      exact hs.bankWithinCapacity r
  cfgIsStrap := by simpa using hs.cfgIsStrap
  statusLegal := by
    cases hst : e.status with
    | none => simpa [apply, hst] using hs.statusLegal
    | some st => simpa [apply, hst] using h.statusLegal st hst
  diagBit7Clear := (h.diag s.diag).2 hs.diagBit7Clear
  memCanonical := Memory.wf_writeBytes _ _ _ hs.memCanonical
  memInRange := Memory.inRange_writeBytes _ _ _ hs.memInRange h.storedInMem
  sentFrames F hF := by
    rw [apply_scheme]
    exact (List.mem_append.mp hF).elim (hs.sentFrames F) (h.sentFrames F)
  parserReached := by
    obtain ⟨B, hB⟩ := hs.parserReached
    exact ⟨B ++ e.heard, by simp [apply, hB]⟩

end Effect.Allowed

theorem exec_frameKept {i : Instr} {s t : State} (h : exec i s = .next t) : FrameKept i s t := by
  obtain ⟨e, he, rfl, -⟩ := exec_next h
  exact he.frameKept

theorem exec_keeps_inv {i : Instr} {s t : State} (hs : Inv s) (h : exec i s = .next t) : Inv t := by
  obtain ⟨e, he, rfl, -⟩ := exec_next h
  exact he.inv hs

/-- The invariant does not speak of the host's pending moves. -/
theorem Inv.with_host {s : State} (h : Inv s) (rest : List HostMove) : Inv { s with host := rest } where
  bankWithinCapacity r := h.bankWithinCapacity r
  cfgIsStrap := h.cfgIsStrap
  statusLegal := h.statusLegal
  diagBit7Clear := h.diagBit7Clear
  memCanonical := h.memCanonical
  memInRange := h.memInRange
  sentFrames := h.sentFrames
  parserReached := h.parserReached

theorem inv_resetFor (sc : Scheme) (m : Memory) (hm : m.wf) (hr : m.inRange) : Inv (State.resetFor sc m) where
  bankWithinCapacity r := by simp
  cfgIsStrap := by simp
  statusLegal := .inl ⟨.noError, rfl⟩
  diagBit7Clear := by simp [State.resetFor]
  memCanonical := hm
  memInRange := hr
  sentFrames := nofun
  parserReached := ⟨[], rfl⟩

theorem refuse_keeps_inv (c : RefuseCode) {s t : State} (hs : Inv s) (h : refuse c s = .next t) : Inv t := by
  cases h
  exact { hs with
    statusLegal := .inr (.inr ⟨c, rfl⟩)
    diagBit7Clear := by
      have hd := hs.diagBit7Clear
      rw [orDiag_getLsbD _ _ _ (by decide), hd]; rfl }

/-- Every move of the host keeps the invariant (70_reset_and_hazards.md R346). -/
theorem runMove_keeps_inv {m : HostMove} {s t : State} (hs : Inv s) (h : runMove m s = .next t) : Inv t := by
  cases m with
  | read p => cases h; exact hs
  | writeMem a x =>
    cases h
    exact { hs with
      memCanonical := Memory.wf_write _ _ _ hs.memCanonical
      memInRange := Memory.inRange_write _ _ _ hs.memInRange (addr_lt_memSize a) }
  | takeTx n =>
    cases h
    exact { hs with sentFrames := fun F hF => hs.sentFrames F (List.mem_of_mem_drop hF) }
  | present p =>
    cases hp : decode p with
    | some i => exact exec_keeps_inv hs ((runMove_present p i s hp).symm.trans h)
    | none => exact refuse_keeps_inv .illegalCommand hs ((runMove_illegal p s hp).symm.trans h)
  | reset =>
    cases h
    exact (inv_resetFor s.scheme s.mem hs.memCanonical hs.memInRange).with_host s.host
  | newBuffer =>
    cases h
    exact { hs with parserReached := ⟨[], rfl⟩ }

/-- No move of the host changes CFG; for reset that is because CFG holds the strap and nothing else. -/
theorem runMove_cfg {m : HostMove} {s t : State} (hs : Inv s) (h : runMove m s = .next t) : t.cfg = s.cfg := by
  cases m with
  | read | writeMem | takeTx | newBuffer => cases h; rfl
  | present p =>
    cases hp : decode p with
    | some i => exact (exec_frameKept ((runMove_present p i s hp).symm.trans h)).cfg
    | none => cases (runMove_illegal p s hp).symm.trans h; rfl
  | reset => cases h; exact hs.cfgIsStrap.symm

/-- All a step can do: CORE waits, or the oldest move of the host is carried out. -/
theorem step_cases {s t : State} (h : step s = .next t) :
    t = s ∨ ∃ m rest, s.host = m :: rest ∧ runMove m { s with host := rest } = .next t := by
  cases hh : s.host with
  | nil => exact .inl (Host.Outcome.next.inj ((step_nil s hh).symm.trans h)).symm
  | cons m rest => exact .inr ⟨m, rest, rfl, (step_cons s m rest hh).symm.trans h⟩

theorem cfgOf_getLsbD_pos (sc : Scheme) {k : Nat} (hk : 0 < k) : (cfgOf sc).getLsbD k = false := by
  cases sc <;> simp [cfgOf]; omega

end Sys2Proof.Machine

section
open Sys2Proof Sys2Proof.Machine

/-- Settles O11: every effect an instruction may have, and every other move of the host, keeps the invariant. -/
theorem everyStepKeepsTheInvariant : Obligations.EveryStepKeepsTheInvariant := by
  intro s t hs h
  obtain rfl | ⟨m, rest, -, hm⟩ := step_cases h
  · exact hs
  · exact runMove_keeps_inv (hs.with_host rest) hm

/-- Settles O6: the step rule for a pending move, then the rule for a presented word. -/
theorem stepRunsTheDecodedInstruction : Obligations.StepRunsTheDecodedInstruction := by
  intro s p i rest hh hp
  rw [step_cons s _ rest hh, runMove_present p i _ hp]

/-- Settles O9: the state after the move is `State.resetFor` of the strap found in CFG and of the MEM found. -/
theorem resetLeavesTheRuleValues : Obligations.ResetLeavesTheRuleValues := by
  refine ⟨fun s rest hh => ?_, fun sc m => ?_⟩
  · refine ⟨_, step_cons s .reset rest hh, fun r => by cases r <;> rfl, rfl, ?_, rfl, rfl, rfl, rfl, rfl, rfl, rfl⟩
    simp only [State.resetFor_cfg, State.scheme]
    split <;> rfl
  · exact ⟨State.resetFor_readV sc m, by cases sc <;> rfl, rfl, rfl, rfl, rfl, rfl, rfl, rfl⟩

/-- Settles O10: reset leaves no cell of MEM, so its MEM is canonical and in range. -/
theorem resetSatisfiesTheInvariant : Obligations.ResetSatisfiesTheInvariant :=
  ⟨inv_resetFor _ _ Memory.wf_reset nofun, inv_resetFor⟩

/-- Settles O17: a framing command agrees on any two banks and writes no register. -/
theorem framingCommandsIgnoreTheBank : Obligations.FramingCommandsIgnoreTheBank := by
  intro i s t a b c d hi h
  have hdest := destOf_of_isFraming hi
  obtain ⟨e, he, rfl, hexec⟩ := exec_next h
  refine ⟨fun r => he.frameKept.bank r (by simp [hdest]), (hexec _ (.with_bank hi s a b c d)).trans ?_⟩
  simp [Effect.apply, he.dest_none hdest]

/-- Settles O18: the frame gives that no instruction changes CFG, the invariant that reset does not. -/
theorem schemeIsConstantAndSteersFramingOnly : Obligations.SchemeIsConstantAndSteersFramingOnly := by
  refine ⟨fun _ => rfl, fun i s t h => (exec_frameKept h).cfg, fun s t hs h => ?_, fun i s t c hi h => ?_⟩
  · have hcfg : t.cfg = s.cfg := by
      obtain rfl | ⟨m, rest, -, hm⟩ := step_cases h
      · rfl
      · exact (runMove_cfg (hs.with_host rest) hm :)
    refine ⟨hcfg, fun k hk => ?_⟩
    rw [hcfg, hs.cfgIsStrap, cfgOf_getLsbD_pos _ hk]
  · obtain ⟨e, -, rfl, hexec⟩ := exec_next h
    refine (hexec _ (.with_cfg hi s c)).trans ?_
    rw [e.apply_with_cfg]

/-- Settles O19: the two states agree on all that any instruction reads. -/
theorem noInstructionReadsAResultRegister : Obligations.NoInstructionReadsAResultRegister := by
  intro i s t st re rl sy h
  obtain ⟨e, he, rfl, hexec⟩ := exec_next h
  refine ⟨_, hexec _ (.with_results i s st re rl sy), fun r => ?_, rfl, rfl, rfl, rfl, fun hi => ?_, ?_, ?_, ?_⟩
  · simp only [Effect.apply_readV]
    exact e.bank_readV_congr (s.readV_with_results st re rl sy) r
  · obtain ⟨x, hx⟩ := Option.isSome_iff_exists.mp (he.statusWritten.trans hi)
    simp [Effect.apply, hx]
  · cases hx : e.res <;> simp [Effect.apply, hx]
  · cases hx : e.rlen <;> simp [Effect.apply, hx]
  · cases hx : e.synd <;> simp [Effect.apply, hx]

/-- Settles O56: an allowed effect of a command that does not write MEM stores no byte. -/
theorem nonStoringCommandsFrame : Obligations.NonStoringCommandsFrame := by
  intro i s t _ hw h
  obtain ⟨e, he, rfl, -⟩ := exec_next h
  exact ⟨he.frameKept, fun a => by rw [e.apply_mem_of_stored_nil s (he.stored_nil hw)], e.sent, rfl⟩

/-- Settles O57: the bytes an allowed effect stores are the packed register or the frame, at the operand address. -/
theorem storingCommandsFrame : Obligations.StoringCommandsFrame := by
  refine ⟨fun rs addr s t h => ?_, fun src n dst s t h => ?_⟩
  all_goals
    obtain ⟨e, he, rfl, -⟩ := exec_next h
    refine ⟨he.frameKept, fun a ha => he.mem_read a fun ⟨haddr, hstored⟩ => ?_⟩
    rwa [haddr, hstored]

/-- Settles O58: a payload is shorter than MEM, so RLEN holds its length exactly, and it is stored only with a STATUS
whose ERR is 0. -/
theorem frmDecodeFrame : Obligations.FrmDecodeFrame := by
  intro src n dst s t h
  obtain ⟨e, he, rfl, -⟩ := exec_next h
  refine ⟨he.frameKept, fun a ha => he.mem_read a fun ⟨haddr, hlt, hrlen, _⟩ => ?_, fun herr a => ?_⟩
  · have hlen : (e.apply s).rlen.toNat = e.stored.length := by
      simp only [Effect.apply, hrlen, Option.getD_some, count16, BitVec.toNat_ofNat]
      exact Nat.mod_eq_of_lt hlt
    rwa [haddr, ← hlen]
  · refine he.mem_read a fun ⟨_, _, _, cls, hst⟩ => absurd ?_ herr
    simp only [State.err, Effect.apply, hst, Option.getD_some]
    exact (statusWord_fields 0 cls (by decide)).1

/-- Settles O59: a wire byte is read by the kept parser and does nothing else. -/
theorem wireBytesFrame : Obligations.WireBytesFrame := by
  intro i s t hi h
  have hframe := exec_frameKept h
  obtain ⟨x, hx⟩ := exec_eq_readWireByte hi
  cases (hx s).symm.trans h
  exact ⟨hframe, fun _ => rfl, rfl⟩

end

namespace Sys2Proof.Machine

/-! ## Bytes and bits (20_memory.md R71, R72)

Both conversions are described bit by bit, for every index; the inverse laws then follow by comparing bits. -/

/-- Reading a bit of a concatenation. -/
theorem getBit_append (u v : Bits) (i : Nat) :
    getBit (u ++ v) i = if i < u.length then getBit u i else getBit v (i - u.length) := by
  split
  · exact List.getD_append u v false i ‹_›
  · exact List.getD_append_right u v false i (by omega)

/-- Padding zeros read as the zeros beyond the end. -/
theorem getBit_append_replicate_false (v : Bits) (n i : Nat) :
    getBit (v ++ List.replicate n false) i = getBit v i := by
  rw [getBit_append]
  split
  · rfl
  · rw [getBit_of_ge v i (by omega)]
    simp only [getBit, List.getD_eq_getElem?_getD, List.getElem?_replicate]
    split <;> rfl

/-- Bit `i` of `bits(B)` is bit `i % 8` of byte `i / 8`, 0 beyond the end (20_memory.md R71). -/
theorem getBit_bits (B : List Byte) (i : Nat) : getBit (bits B) i = (B.getD (i / 8) 0).getLsbD (i % 8) := by
  induction B generalizing i with
  | nil => simp [getBit]
  | cons x B ih =>
    rw [bits_cons, getBit_append, length_byteBits]
    split
    · rw [getBit_byteBits, Nat.div_eq_of_lt ‹_›, Nat.mod_eq_of_lt ‹_›, List.getD_cons_zero]
    · have hdiv : i / 8 = (i - 8) / 8 + 1 := by omega
      have hmod : i % 8 = (i - 8) % 8 := by omega
      rw [ih, hdiv, hmod, List.getD_cons_succ]

/-- Bit `b` of byte `k` of `bytes(v)` is bit `8k + b` of `v`, 0 beyond the end (20_memory.md R72). -/
theorem getLsbD_getD_bytes (v : Bits) (k b : Nat) (hb : b < 8) :
    ((bytes v).getD k 0).getLsbD b = getBit v (8 * k + b) := by
  by_cases hk : k < (v.length + 7) / 8
  · have hbyte : (bytes v).getD k 0 = BitVec.ofNat 8 (bitsToNat ((v.drop (8 * k)).take 8)) := by
      simp [bytes, hk]
    rw [hbyte, getLsbD_ofNat_bitsToNat _ _ _ hb]
    simp [getBit, hb]
  · rw [List.getD_eq_default _ _ (by simpa using hk), getBit_of_ge _ _ (by omega)]
    exact BitVec.getLsbD_zero

/-- A byte list is determined by its bits. -/
theorem bits_injective {A B : List Byte} (h : bits A = bits B) : A = B := by
  have hlen : A.length = B.length := by simpa using congrArg List.length h
  refine List.ext_getElem hlen fun k hA hB => BitVec.eq_of_getLsbD_eq fun b hb => ?_
  have hbit := congrArg (getBit · (8 * k + b)) h
  have hdiv : (8 * k + b) / 8 = k := by omega
  have hmod : (8 * k + b) % 8 = b := by omega
  simpa [getBit_bits, hdiv, hmod, hA, hB] using hbit

/-- Packing and unpacking a vector pads it with zeros to whole bytes. -/
theorem bits_bytes (v : Bits) : bits (bytes v) = v ++ List.replicate ((8 - v.length % 8) % 8) false := by
  refine bits_ext (by simp; omega) fun i => ?_
  rw [getBit_append_replicate_false, getBit_bits, getLsbD_getD_bytes v _ _ (Nat.mod_lt i (by decide)),
    Nat.div_add_mod]

/-- Unpacking and packing a byte list gives it back: whole bytes need no padding. -/
theorem bytes_bits (B : List Byte) : bytes (bits B) = B :=
  bits_injective (by simp [bits_bytes])

end Sys2Proof.Machine

section
open Sys2Proof Sys2Proof.Machine

/-- Settles O26: the inverse laws, and the bit of a packed byte. -/
theorem bytesAndBitsAreInverse : Obligations.BytesAndBitsAreInverse :=
  ⟨bytes_bits, fun v => ⟨length_bytes v, fun k b _ hb => getLsbD_getD_bytes v k b hb, bits_bytes v⟩⟩

end

namespace Sys2Proof
open Machine
open Laws.EncodedFields (fields)

/-! ## Decoding and encoding (30_encoding.md R100 to R111, R125)

The decoder is described twice. By its result: it reads `f` as `i` exactly when `fields i`, the row of the opcode map
for `i`, is `f`. By its domain: it reads `f` as something exactly when the fixed bits of its opcode are 0
(`FixedBitsZero`) and its register fields name registers (`RegistersLegal`). The round trips follow from the first;
R108 and the masks of the opcode table are each compared with the second. -/

/-! ### Bits above a bound -/

/-- What a shift leaves over is 0 exactly when the number is below the power of two. -/
theorem ushiftRight_eq_zero_iff {n : Nat} (x : BitVec n) (k : Nat) : x >>> k = 0 ↔ x.toNat < 2 ^ k := by
  simp [BitVec.toNat_eq, Nat.shiftRight_eq_div_pow, Nat.div_eq_zero_iff]

/-- The shift by the whole width constrains nothing. -/
theorem ushiftRight_ite_eq_zero_iff {n : Nat} (x : BitVec n) (p : Prop) [Decidable p] (k : Nat) :
    x >>> (if p then k else n) = 0 ↔ (p → x >>> k = 0) := by
  split <;> simp_all [BitVec.ushiftRight_eq_zero]

/-- Testing the bits from `k` up by a mask or by a shift is the same. -/
theorem and_allOnes_shiftLeft_eq_zero_iff {n : Nat} (x : BitVec n) (k : Nat) :
    x &&& BitVec.allOnes n <<< k = 0 ↔ x >>> k = 0 := by
  have hlt : x.toNat / 2 ^ k * 2 ^ k < 2 ^ n := (Nat.div_mul_le_self _ _).trans_lt x.isLt
  simp [← BitVec.shiftLeft_ushiftRight, BitVec.toNat_eq, Nat.shiftRight_eq_div_pow, Nat.shiftLeft_eq,
    Nat.mod_eq_of_lt hlt]

/-- The field `b` of BV_SET, when legal, is its lowest bit. -/
theorem ite_getElem_zero_of_shift {b : Word16} (h : b >>> 1 = 0) : (if b[0] then 1#16 else 0#16) = b := by
  have hb : b.toNat < 2 := (ushiftRight_eq_zero_iff b 1).mp h
  have hbit : b[0] = decide (b.toNat % 2 = 1) := by simp [BitVec.getElem_eq_testBit_toNat]
  rw [hbit, BitVec.toNat_eq]
  split <;> simp_all <;> omega

/-- The field `a` of HAM_CORRECT, when legal, is its low byte. -/
theorem setWidth_setWidth_of_shift {a : Word16} (h : a >>> 8 = 0) : (a.setWidth 8).setWidth 16 = a :=
  BitVec.setWidth_setWidth_eq_self (BitVec.lt_def.mpr ((ushiftRight_eq_zero_iff a 8).mp h))

/-! ### The forms of a command: no register field, a destination, a source, both -/

theorem destReg_eq_some_iff {x : BitVec 3} {r : VReg} : destReg x = some r ↔ r.spec = x :=
  ⟨spec_of_destReg, fun h => h ▸ destReg_spec r⟩

theorem srcReg_eq_some_iff {x : BitVec 3} {r : VSrc} : srcReg x = some r ↔ r.spec = x :=
  ⟨spec_of_srcReg, fun h => h ▸ srcReg_spec r⟩

theorem isSome_destReg_iff (x : BitVec 3) : (destReg x).isSome ↔ x.toNat ∉ [4, 5, 6] ∧ x.toNat ≠ 7 := by
  revert x; decide

theorem isSome_srcReg_iff (x : BitVec 3) : (srcReg x).isSome ↔ x.toNat ∉ [4, 5, 6] := by
  revert x; decide

section
variable {z : Bool} {f : Fields} {i : Instr}

theorem whenZero_eq_some_iff {j : Instr} : whenZero z j = some i ↔ z = true ∧ j = i := by
  cases z <;> simp [whenZero]

theorem withDest_eq_some_iff {mk : VReg → Instr} :
    withDest z f mk = some i ↔ ∃ rd, rd.spec = f.rd ∧ z = true ∧ mk rd = i := by
  simp only [← destReg_eq_some_iff, withDest]
  cases destReg f.rd <;> simp [whenZero_eq_some_iff]

theorem withSrc_eq_some_iff {mk : VSrc → Instr} :
    withSrc z f mk = some i ↔ ∃ rs, rs.spec = f.rs ∧ z = true ∧ mk rs = i := by
  simp only [← srcReg_eq_some_iff, withSrc]
  cases srcReg f.rs <;> simp [whenZero_eq_some_iff]

theorem withDestSrc_eq_some_iff {mk : VReg → VSrc → Instr} :
    withDestSrc z f mk = some i ↔ ∃ rd rs, rd.spec = f.rd ∧ rs.spec = f.rs ∧ z = true ∧ mk rd rs = i := by
  simp only [← destReg_eq_some_iff, ← srcReg_eq_some_iff, withDestSrc]
  cases destReg f.rd <;> cases srcReg f.rs <;> simp [whenZero_eq_some_iff]

end

@[simp] theorem isSome_whenZero (z : Bool) (i : Instr) : (whenZero z i).isSome = z := by
  cases z <;> rfl

@[simp] theorem isSome_withDest (z : Bool) (f : Fields) (mk : VReg → Instr) :
    (withDest z f mk).isSome = ((destReg f.rd).isSome && z) := by
  unfold withDest; cases destReg f.rd <;> simp

@[simp] theorem isSome_withSrc (z : Bool) (f : Fields) (mk : VSrc → Instr) :
    (withSrc z f mk).isSome = ((srcReg f.rs).isSome && z) := by
  unfold withSrc; cases srcReg f.rs <;> simp

@[simp] theorem isSome_withDestSrc (z : Bool) (f : Fields) (mk : VReg → VSrc → Instr) :
    (withDestSrc z f mk).isSome = ((destReg f.rd).isSome && (srcReg f.rs).isSome && z) := by
  unfold withDestSrc; cases destReg f.rd <;> cases srcReg f.rs <;> simp

/-! ### The decoder by its result -/

/-- The decoder reads the fields of a command as that command. -/
theorem decodeFields_of_fields {f : Fields} {i : Instr} (h : fields i = some f) : decodeFields f = some i := by
  cases i <;> cases h
  case bvSet.refl rd idx bit => cases bit <;> simp [decodeFields, withDest, whenZero]
  case hamCorrect.refl rd par =>
    have hpar : par.setWidth 16 >>> 8 = 0#16 :=
      (ushiftRight_eq_zero_iff _ 8).mpr (by rw [BitVec.toNat_setWidth_of_le (by decide)]; exact par.isLt)
    simp [decodeFields, withDest, whenZero, hpar]
  all_goals simp [decodeFields, withDest, withSrc, withDestSrc, whenZero]

/-- What the decoder reads, one case per opcode, has the fields it was read from: the unused ones passed the zero
test, the register fields are the specifiers. -/
theorem fields_of_decodeFields {f : Fields} {i : Instr} (h : decodeFields f = some i) : fields i = some f := by
  obtain ⟨op, rd, rs, z, a, b, c⟩ := f
  unfold decodeFields at h
  split at h
  case h_1 | h_2 | h_17 | h_18 | h_19 | h_20 =>
    obtain ⟨hz, rfl⟩ := whenZero_eq_some_iff.mp h
    simp_all [fields]
  case h_3 | h_6 =>
    obtain ⟨rd, hrd, hz, rfl⟩ := withDest_eq_some_iff.mp h
    simp_all [fields]
  case h_5 =>
    obtain ⟨rd, hrd, hz, rfl⟩ := withDest_eq_some_iff.mp h
    simp_all [fields, ite_getElem_zero_of_shift]
  case h_14 =>
    obtain ⟨rd, hrd, hz, rfl⟩ := withDest_eq_some_iff.mp h
    simp_all [fields, setWidth_setWidth_of_shift]
  case h_4 | h_7 | h_10 | h_12 | h_13 =>
    obtain ⟨rs, hrs, hz, rfl⟩ := withSrc_eq_some_iff.mp h
    simp_all [fields]
  case h_8 | h_9 | h_11 | h_15 | h_16 =>
    obtain ⟨rd, rs, hrd, hrs, hz, rfl⟩ := withDestSrc_eq_some_iff.mp h
    simp_all [fields]
  case h_21 => cases h

theorem encode_of_fields {f : Fields} {i : Instr} (h : fields i = some f) : encode i = .cmd (packFields f) := by
  cases i <;> cases h <;> rfl

/-- Only a byte class has no fields; its byte is read as that class (30_encoding.md R111). -/
theorem encode_of_fields_none {i : Instr} (h : fields i = none) (hi : i.wellFormed = true) :
    ∃ x, encode i = .byte x ∧ decodeByte x = i := by
  cases i <;> cases h
  case wireData.refl x => exact ⟨x, rfl, by simp_all [Instr.wellFormed, decodeByte]⟩
  all_goals exact ⟨_, rfl, rfl⟩

theorem isCommand_of_fields {f : Fields} {i : Instr} (h : fields i = some f) : isCommand i = true := by
  cases i <;> trivial

/-- A decoded command word is a well-formed command and its own encoding. -/
theorem encode_of_decodeCmd {w : CmdWord} {i : Instr} (h : decodeCmd w = some i) :
    isCommand i = true ∧ i.wellFormed = true ∧ encode i = .cmd w := by
  have hf : fields i = some (fieldsOf w) := fields_of_decodeFields h
  have hi : isCommand i = true := isCommand_of_fields hf
  exact ⟨hi, by cases i <;> trivial, by rw [encode_of_fields hf, packFields_fieldsOf]⟩

/-- A byte class is well-formed and its own encoding: DATA is what is left after the three tags. -/
theorem encode_decodeByte (x : Byte) : (decodeByte x).wellFormed = true ∧ encode (decodeByte x) = .byte x := by
  unfold decodeByte
  split_ifs with hstart hstop hesc
  · exact ⟨rfl, hstart ▸ rfl⟩
  · exact ⟨rfl, hstop ▸ rfl⟩
  · exact ⟨rfl, hesc ▸ rfl⟩
  · simp_all [Instr.wellFormed, encode]

/-! ### The decoder by its domain -/

/-- The fixed bits of a word are 0: z, every unused field, and the bits of R108 (f), (g). -/
def FixedBitsZero (u : UsedFields) (f : Fields) : Prop :=
  f.z = 0 ∧ (u.rd = false → f.rd = 0) ∧ (u.rs = false → f.rs = 0) ∧
    (u.a = false → f.a = 0) ∧ (u.b = false → f.b = 0) ∧ (u.c = false → f.c = 0) ∧
    (f.op = 0x12 → f.b >>> 1 = 0) ∧ (f.op = 0x31 → f.a >>> 8 = 0)

/-- Every used register field names a register it may name (30_encoding.md R101). -/
def RegistersLegal (u : UsedFields) (f : Fields) : Prop :=
  (u.rd = true → (destReg f.rd).isSome) ∧ (u.rs = true → (srcReg f.rs).isSome)

/-- The decoder tests, opcode by opcode, the fixed bits and the used register fields. -/
theorem isSome_decodeFields_iff (f : Fields) :
    (decodeFields f).isSome ↔
      ∃ u, usedFields f.op.toNat = some u ∧ FixedBitsZero u f ∧ RegistersLegal u f := by
  unfold decodeFields
  split
  case h_21 => simp_all [usedFields, BitVec.toNat_eq]
  all_goals
    rename_i hop
    simp [hop, usedFields, FixedBitsZero, RegistersLegal]
    tauto

theorem fieldNat_op (w : CmdWord) : fieldNat w 56 8 = (fieldsOf w).op.toNat := fieldNat_eq w 56 8

/-- R108 (d), (e) on the numbers of the word are the tests of the register fields. -/
theorem registerFieldsIllegal_iff (w : CmdWord) (u : UsedFields) :
    registerFieldsIllegal w u ↔ ¬ RegistersLegal u (fieldsOf w) := by
  simp only [registerFieldsIllegal, RegistersLegal, fieldNat_eq, isSome_destReg_iff, isSome_srcReg_iff, fieldsOf]
  tauto

/-- R108 (a) to (g) on the numbers of the word are the tests of the decoder. -/
theorem illegalWord_iff (w : CmdWord) :
    IllegalWord w ↔ ¬ ∃ u, usedFields (fieldNat w 56 8) = some u ∧ FixedBitsZero u (fieldsOf w) ∧
      RegistersLegal u (fieldsOf w) := by
  unfold IllegalWord
  cases hu : usedFields (fieldNat w 56 8) with
  | none => simp
  | some u =>
    simp only [registerFieldsIllegal_iff, FixedBitsZero, ushiftRight_eq_zero_iff]
    simp only [fieldNat_eq, fieldsOf, BitVec.toNat_eq]
    grind

theorem decodeCmd_eq_none_iff (w : CmdWord) : decodeCmd w = none ↔ IllegalWord w := by
  rw [illegalWord_iff, fieldNat_op, ← isSome_decodeFields_iff, Option.not_isSome_iff_eq_none, decodeCmd]

/-! ### The rows of the opcode table (30_encoding.md R125) -/

/-- The field-wise AND. -/
def Fields.and (f g : Fields) : Fields :=
  ⟨f.op &&& g.op, f.rd &&& g.rd, f.rs &&& g.rs, f.z &&& g.z, f.a &&& g.a, f.b &&& g.b, f.c &&& g.c⟩

theorem fieldsOf_and (w m : CmdWord) : fieldsOf (w &&& m) = (fieldsOf w).and (fieldsOf m) := by
  simp [fieldsOf, Fields.and, BitVec.extractLsb'_and]

/-- The opcode of a row. -/
def CmdRow.op (r : CmdRow) : BitVec 8 := (fieldsOf r.pattern).op

/-- The mask of a field: all bits of an unused field, of a used one the bits above its `free` low bits. -/
def fixedMask (n : Nat) (used : Bool) (free : Nat) : BitVec n :=
  if used then BitVec.allOnes n <<< free else BitVec.allOnes n

theorem and_fixedMask_eq_zero_iff {n : Nat} (x : BitVec n) (used : Bool) (free : Nat) :
    x &&& fixedMask n used free = 0 ↔ (used = false → x = 0) ∧ x >>> free = 0 := by
  cases used with
  | false => simp +contextual [fixedMask]
  | true => simpa [fixedMask] using and_allOnes_shiftLeft_eq_zero_iff x free

/-- The pattern of an opcode: every other fixed bit is 0. -/
def opcodeFields (op : BitVec 8) : Fields := ⟨op, 0, 0, 0, 0, 0, 0⟩

/-- The fixed bits of an opcode, as 30_encoding.md R105 marks them. -/
def fixedBits (op : BitVec 8) (u : UsedFields) : Fields where
  op := BitVec.allOnes 8
  rd := fixedMask 3 u.rd 3
  rs := fixedMask 3 u.rs 3
  z := BitVec.allOnes 2
  a := fixedMask 16 u.a (if op = 0x31 then 8 else 16)
  b := fixedMask 16 u.b (if op = 0x12 then 1 else 16)
  c := fixedMask 16 u.c 16

theorem and_fixedBits_iff (f : Fields) (u : UsedFields) (op : BitVec 8) :
    f.and (fixedBits op u) = opcodeFields op ↔ f.op = op ∧ FixedBitsZero u f := by
  simp only [Fields.and, fixedBits, opcodeFields, Fields.mk.injEq, FixedBitsZero, BitVec.and_allOnes,
    and_fixedMask_eq_zero_iff, ushiftRight_ite_eq_zero_iff, BitVec.ushiftRight_eq_zero le_rfl]
  refine and_congr_right ?_
  rintro rfl
  grind

/-- The 20 rows: each has the pattern of its opcode and the mask of the fixed bits. -/
theorem cmdRows_shape : ∀ r ∈ cmdRows, fieldsOf r.pattern = opcodeFields r.op ∧
    (usedFields r.op.toNat).map (fixedBits r.op) = some (fieldsOf r.mask) := by
  decide +kernel

/-- No two rows have one opcode. -/
theorem cmdRows_eq_of_op_eq : ∀ r ∈ cmdRows, ∀ r' ∈ cmdRows, r.op = r'.op → r = r' := by
  decide +kernel

/-- Every opcode that is not reserved has a row. -/
theorem exists_row_of_usedFields : ∀ op : BitVec 8, (usedFields op.toNat).isSome → ∃ r ∈ cmdRows, r.op = op := by
  decide +kernel

/-- Every command has a row with its opcode and mnemonic. -/
theorem exists_row_of_fields {f : Fields} {i : Instr} (h : fields i = some f) :
    ∃ r ∈ cmdRows, r.op = f.op ∧ r.mnemonic = i.mnemonic := by
  have hfind : (cmdRows.find? (·.op = f.op)).map (·.mnemonic) = some i.mnemonic := by
    cases i <;> cases h <;> rfl
  obtain ⟨r, hr, hname⟩ := Option.map_eq_some_iff.mp hfind
  exact ⟨r, List.mem_of_find?_eq_some hr, by simpa using List.find?_some hr, hname⟩

/-- A word is of a row when it has the row's opcode and its fixed bits are 0. -/
theorem CmdRow.matches_iff {r : CmdRow} (hr : r ∈ cmdRows) (w : CmdWord) :
    r.matches w = true ↔ r.op = (fieldsOf w).op ∧
      ∃ u, usedFields (fieldNat w 56 8) = some u ∧ FixedBitsZero u (fieldsOf w) := by
  obtain ⟨hpattern, hused⟩ := cmdRows_shape r hr
  obtain ⟨u, hu, hmask⟩ := Option.map_eq_some_iff.mp hused
  have hfields : r.matches w = true ↔ (fieldsOf w).and (fieldsOf r.mask) = fieldsOf r.pattern := by
    rw [← fieldsOf_and, CmdRow.matches, beq_iff_eq]
    exact ⟨congrArg fieldsOf, fun h => fieldsOf_injective h⟩
  rw [hfields, hpattern, ← hmask, and_fixedBits_iff, eq_comm, fieldNat_op]
  refine and_congr_right fun hop => ?_
  simp [← hop, hu]

/-- A word is of no row exactly when its opcode is reserved or a fixed bit is not 0. -/
theorem no_row_matches_iff (w : CmdWord) : (∀ r ∈ cmdRows, r.matches w = false) ↔
    ¬ ∃ u, usedFields (fieldNat w 56 8) = some u ∧ FixedBitsZero u (fieldsOf w) := by
  constructor
  · rintro hno ⟨u, hu, hz⟩
    obtain ⟨r, hr, hop⟩ := exists_row_of_usedFields (fieldsOf w).op (by rw [← fieldNat_op, hu]; rfl)
    have hmatch : r.matches w = true := (CmdRow.matches_iff hr w).mpr ⟨hop, u, hu, hz⟩
    simp [hno r hr] at hmatch
  · intro hno r hr
    exact Bool.eq_false_iff.mpr fun hmatch => hno ((CmdRow.matches_iff hr w).mp hmatch).2

end Sys2Proof

section
open Sys2Proof Sys2Proof.Machine
open Sys2Proof.Laws.EncodedFields (fields)

/-- Settles O2: a command's fields decode to it, whatever the operands; a byte class is read from its byte. -/
theorem decodeEncodeRoundTrip : Obligations.DecodeEncodeRoundTrip := by
  intro i hi
  cases hf : fields i with
  | some f =>
    rw [encode_of_fields hf, decode, decodeCmd, fieldsOf_packFields]
    exact decodeFields_of_fields hf
  | none =>
    obtain ⟨x, hx, hclass⟩ := encode_of_fields_none hf hi
    rw [hx, decode, hclass]

/-- Settles O3: for a command word and for a wire byte. -/
theorem encodeDecodeRoundTrip : Obligations.EncodeDecodeRoundTrip := by
  intro p i h
  cases p with
  | cmd w => exact (encode_of_decodeCmd h).2
  | byte x =>
    cases h
    exact encode_decodeByte x

/-- Settles O4: the tests of R108 are the decoder's, a word it reads as nothing is refused, and what it reads
encodes back. -/
theorem illegalWordsAreExactlyRule108 : Obligations.IllegalWordsAreExactlyRule108 := by
  intro w
  refine ⟨fun hw s rest hs => ?_, (decodeCmd_eq_none_iff w).mpr, fun hw => ?_⟩
  · have hnone : decode (.cmd w) = none := (decodeCmd_eq_none_iff w).mpr hw
    rw [step_cons s _ rest hs, runMove_illegal _ _ hnone, refuse_eq]
    rfl
  · obtain ⟨i, hi⟩ := Option.ne_none_iff_exists'.mp (mt (decodeCmd_eq_none_iff w).mp hw)
    obtain ⟨hcmd, -, henc⟩ := encode_of_decodeCmd hi
    exact ⟨i, hi, hcmd, henc⟩

/-- Settles O5: a row is selected by its opcode and asks for the fixed bits, which leaves the register fields. -/
theorem opcodeTableSelectsTheCommand : Obligations.OpcodeTableSelectsTheCommand := by
  intro w
  refine ⟨fun r hr r' hr' hm hm' => ?_, fun i hi => ?_, ?_⟩
  · have hop := ((CmdRow.matches_iff hr w).mp hm).1
    have hop' := ((CmdRow.matches_iff hr' w).mp hm').1
    exact cmdRows_eq_of_op_eq r hr r' hr' (hop.trans hop'.symm)
  · obtain ⟨r, hr, hop, hname⟩ := exists_row_of_fields (fields_of_decodeFields hi)
    have hsome : (decodeFields (fieldsOf w)).isSome := Option.isSome_of_mem hi
    obtain ⟨u, hu, hz, -⟩ := (isSome_decodeFields_iff _).mp hsome
    exact ⟨r, hr, (CmdRow.matches_iff hr w).mpr ⟨hop, u, (fieldNat_op w).symm ▸ hu, hz⟩, hname⟩
  · simp only [decodeCmd_eq_none_iff, illegalWord_iff, no_row_matches_iff, registerFieldsIllegal_iff]
    cases usedFields (fieldNat w 56 8) with
    | none => simp
    | some u => simp; tauto

/-- Settles O1: by running the decoder on each word. -/
theorem workedEncodingsDecode : Obligations.WorkedEncodingsDecode := by
  unfold Obligations.WorkedEncodingsDecode
  decide +kernel

end

namespace Sys2Proof.Machine

open Laws.EncodedFields (fields)

/-! ## The bit-vector commands (40_bitvector.md R145 to R150)

Each command's outcomes are said once, one equation per outcome: the bound of the rule decides between success and
refusal. What the result holds is then read off the bit-by-bit laws of `setBit`, `xorAt`, `bits` and `bytes`. -/

/-- The number of a command's word, from the command's row of the opcode map (30_encoding.md R100, R104). -/
theorem encode_eq_wordOf {i : Instr} {op : BitVec 8} {rd rs : BitVec 3} {a b c : Word16}
    (h : fields i = some ⟨op, rd, rs, 0, a, b, c⟩) :
    encode i = wordOf op.toNat rd.toNat rs.toNat a.toNat b.toNat c.toNat := by
  rw [encode_of_fields h, packFields_eq_wordOf]

/-- VG is 1 at indices 0 and 16 only (10_state.md R33). -/
theorem getBit_gen (i : Nat) : getBit Config.gen i = decide (i = 0 ∨ i = 16) := by
  by_cases hi : i < 17
  · have hsmall : ∀ j < 17, getBit Config.gen j = decide (j = 0 ∨ j = 16) := by decide
    exact hsmall i hi
  · rw [getBit_of_ge _ _ (by rw [length_gen]; omega), eq_comm, decide_eq_false_iff_not]
    omega

/-- The rules' reading of a bit as an entry of the list that may be missing. -/
theorem getElem?_eq_some_true_iff (v : Bits) (i : Nat) : v[i]? = some true ↔ getBit v i = true := by
  rw [getBit, List.getD_eq_getElem?_getD]
  cases v[i]? <;> simp

/-- Bit `8k + b` of `bits(B)` is bit `b` of byte `k` (20_memory.md R71). -/
theorem getBit_bits_mul_add (B : List Byte) (k : Nat) {b : Nat} (hb : b < 8) :
    getBit (bits B) (8 * k + b) = (B.getD k 0).getLsbD b := by
  have hdiv : (8 * k + b) / 8 = k := by omega
  have hmod : (8 * k + b) % 8 = b := by omega
  rw [getBit_bits, hdiv, hmod]

/-- Byte `k` of a range read, for a list that reads 0 beyond its end. -/
theorem Memory.getD_readBytes (m : Memory) (addr n k : Nat) (h : k < n) :
    (m.readBytes addr n).getD k 0 = m.read (addr + k) := by
  rw [List.getD_eq_getElem?_getD, Memory.getElem?_readBytes m addr n k h, Option.getD_some]

/-! ### The outcomes of each command -/

section
variable {rd : VReg} {rs : VSrc} {addr n : Addr} {idx off : Word16} {bit : Bool} {s : State}

theorem exec_bvGet : exec (.bvGet rs idx) s =
    .next { s with res := (if getBit (s.readSrc rs) idx.toNat then 1 else 0), status := 0 } := rfl

theorem exec_bvSet_of_lt (h : idx.toNat < 256) : exec (.bvSet rd idx bit) s =
    .next { s.writeV rd (setBit (s.readV rd) idx.toNat bit) with status := 0 } :=
  if_neg (Nat.not_le.mpr h)

theorem exec_bvSet_of_ge (h : 256 ≤ idx.toNat) : exec (.bvSet rd idx bit) s = refuse .bvOverflow s :=
  if_pos h

theorem exec_bvLoad_of_inMem (hm : addr.toNat + n.toNat ≤ 65536) (hn : n.toNat ≤ 32) :
    exec (.bvLoad rd addr n) s =
      .next { s.writeV rd (bits (s.mem.readBytes addr.toNat n.toNat)) with status := 0 } := by
  have hcap : ¬ 256 < 8 * n.toNat := by omega
  simp only [exec, execBvLoad, (inMem_iff _ _).mpr hm, Bool.not_true, Bool.false_eq_true, if_false, if_neg hcap,
    succeed_eq]

theorem exec_bvLoad_of_not_inMem (hm : 65536 < addr.toNat + n.toNat) :
    exec (.bvLoad rd addr n) s = refuse .addrRange s := by
  simp only [exec, execBvLoad, (inMem_false_iff _ _).mpr hm, Bool.not_false, if_true]

theorem exec_bvLoad_of_overflow (hm : addr.toNat + n.toNat ≤ 65536) (hn : 32 < n.toNat) :
    exec (.bvLoad rd addr n) s = refuse .bvOverflow s := by
  have hcap : 256 < 8 * n.toNat := by omega
  simp only [exec, execBvLoad, (inMem_iff _ _).mpr hm, Bool.not_true, Bool.false_eq_true, if_false, if_pos hcap]

theorem exec_bvStore_of_inMem (hm : addr.toNat + (bytes (s.readSrc rs)).length ≤ 65536) :
    exec (.bvStore rs addr) s = .next { s with
      mem := s.mem.writeBytes addr.toNat (bytes (s.readSrc rs))
      rlen := count16 (bytes (s.readSrc rs)).length
      status := 0 } := by
  simp only [exec, execBvStore, (inMem_iff _ _).mpr hm, Bool.not_true, Bool.false_eq_true, if_false, succeed_eq]

theorem exec_bvStore_of_not_inMem (hm : 65536 < addr.toNat + (bytes (s.readSrc rs)).length) :
    exec (.bvStore rs addr) s = refuse .addrRange s := by
  simp only [exec, execBvStore, (inMem_false_iff _ _).mpr hm, Bool.not_false, if_true]

theorem exec_bvXor_of_le (h : (s.readSrc rs).length = 0 ∨ off.toNat + (s.readSrc rs).length ≤ 256) :
    exec (.bvXor rd rs off) s =
      .next { s.writeV rd (xorAt (s.readV rd) (s.readSrc rs) off.toNat) with status := 0 } :=
  if_neg fun (hover : _ ∧ 256 < _) => by omega

theorem exec_bvXor_of_overflow (hpos : 0 < (s.readSrc rs).length) (h : 256 < off.toNat + (s.readSrc rs).length) :
    exec (.bvXor rd rs off) s = refuse .bvOverflow s :=
  if_pos ⟨hpos, h⟩

end

end Sys2Proof.Machine

section
open Sys2Proof Sys2Proof.Machine

/-- Settles O22: from index 256 on the write is refused; below it the result is that of `setBit`. -/
theorem bvSetWritesOneBitAndGrows : Obligations.BvSetWritesOneBitAndGrows := by
  intro rd idx bit s
  have hword : encode (.bvSet rd idx bit) = wordOf 0x12 rd.spec.toNat 0 idx.toNat bit.toNat 0 := by
    cases bit <;> exact (encode_eq_wordOf (i := .bvSet rd idx _) rfl :)
  refine ⟨hword, fun h => ?_, exec_bvSet_of_ge⟩
  exact ⟨_, exec_bvSet_of_lt h, length_setBit _ _ _, getBit_setBit _ _ _⟩

/-- Settles O23: bit `8k + b` of the loaded vector is bit `b` of byte `k` of the range read. -/
theorem bvLoadReadsBytesLowBitFirst : Obligations.BvLoadReadsBytesLowBitFirst := by
  intro rd addr n s
  refine ⟨(encode_eq_wordOf (i := .bvLoad rd addr n) rfl :), fun hm hn => ?_, exec_bvLoad_of_not_inMem,
    exec_bvLoad_of_overflow⟩
  refine ⟨_, exec_bvLoad_of_inMem hm hn, by simp, fun k b hk hb => ?_⟩
  rw [← getBit_eq_getD, getBit_bits_mul_add _ k hb, Memory.getD_readBytes _ _ _ k hk]

/-- Settles O24: inside the range MEM holds the packed bytes, whose bits are the source's; outside it is as before. -/
theorem bvStoreWritesPaddedBytes : Obligations.BvStoreWritesPaddedBytes := by
  intro rs addr s
  rw [← length_bytes]
  refine ⟨(encode_eq_wordOf (i := .bvStore rs addr) rfl :), fun hm => ?_, exec_bvStore_of_not_inMem⟩
  refine ⟨_, exec_bvStore_of_inMem hm, fun k b hk hb => ?_, Memory.read_writeBytes_outside _ _ _⟩
  rw [Memory.read_writeBytes_inside _ _ _ k hk, getLsbD_getD_bytes _ k b hb, getBit_eq_getD]

/-- Settles O25: an empty source leaves the destination's own value, any other is XORed in bit by bit. -/
theorem bvXorAtOffset : Obligations.BvXorAtOffset := by
  intro rd rs off s
  refine ⟨(encode_eq_wordOf (i := .bvXor rd rs off) rfl :), fun hempty => ?_, fun hpos hle => ?_,
    exec_bvXor_of_overflow⟩
  · rw [exec_bvXor_of_le (.inl hempty), List.length_eq_zero_iff.mp hempty, xorAt, State.writeV_readV]
  · refine ⟨_, exec_bvXor_of_le (.inr hle), ?_, getBit_xorAt _ _ _⟩
    rw [length_xorAt, if_neg hpos.ne']

/-- Settles O21: the read bit is `getBit` of the source, which for VG is known at every index. -/
theorem bvClrAndBvGetResults : Obligations.BvClrAndBvGetResults := by
  intro s
  refine ⟨fun rd => (encode_eq_wordOf (i := .bvClr rd) rfl :),
    fun rs idx => (encode_eq_wordOf (i := .bvGet rs idx) rfl :), fun rd => rfl, fun rs idx => ?_, fun idx => ?_⟩
  · simp only [exec_bvGet, getElem?_eq_some_true_iff]
  · simp only [exec_bvGet, State.readSrc_vg, getBit_gen, decide_eq_true_eq]

end

namespace Sys2Proof.Machine

/-! ## The CRC unit (41_crc.md R171 to R182)

One iteration of the division is described bit by bit (`getBit_divStep`). Three facts about the whole loop follow: it
is linear, it clears the bits the windows start at, and it leaves a vector alone where these are clear already. The
check is the comparison of remainders by these three. The closed forms of x^16 + 1 need one fact more: an iteration
flips two bits 16 apart, so it keeps the parity of each residue class modulo 16. -/

/-! ### Division by any generator -/

/-- One iteration of the division loop, the window at `i` (41_crc.md R171). -/
def divStep (g : Bits) (i : Nat) (D : Bits) : Bits := if getBit D i then xorAt D g i else D

theorem polydivLoop_succ (g : Bits) (k i : Nat) (D : Bits) :
    polydivLoop g (k + 1) i D = polydivLoop g k (i + 1) (divStep g i D) := rfl

/-- An iteration adds the shifted generator where the leading bit of the window is 1. -/
theorem getBit_divStep (g : Bits) (i : Nat) (D : Bits) (j : Nat) :
    getBit (divStep g i D) j = (getBit D j ^^ (getBit D i && (decide (i ≤ j) && getBit g (j - i)))) := by
  unfold divStep
  cases getBit D i with
  | false => simp
  | true =>
    rw [if_pos rfl, getBit_xorAt]
    by_cases hj : i ≤ j ∧ j < i + g.length
    · simp [hj]
    · by_cases hij : i ≤ j
      · simp [hj, getBit_of_ge g (j - i) (by omega)]
      · simp [hij]

theorem length_divStep {g D : Bits} {i : Nat} (h : i + g.length ≤ D.length) : (divStep g i D).length = D.length :=
  length_polydivLoop g 1 i D (by omega)

/-- The loop is linear in the bits of the dividend. -/
theorem getBit_polydivLoop_xor (g : Bits) (k i : Nat) {D u w : Bits}
    (h : ∀ j, getBit D j = (getBit u j ^^ getBit w j)) (j : Nat) :
    getBit (polydivLoop g k i D) j = (getBit (polydivLoop g k i u) j ^^ getBit (polydivLoop g k i w) j) := by
  induction k generalizing i D u w with
  | zero => exact h j
  | succ k ih =>
    simp only [polydivLoop_succ]
    refine ih (i + 1) fun j => ?_
    simp only [getBit_divStep, h, Bool.and_xor_distrib_right, Bool.xor_assoc, Bool.xor_left_comm]

/-- The loop does not touch the bits before the window. -/
theorem getBit_polydivLoop_of_lt (g : Bits) (k : Nat) {i j : Nat} (D : Bits) (hj : j < i) :
    getBit (polydivLoop g k i D) j = getBit D j := by
  induction k generalizing i D with
  | zero => rfl
  | succ k ih =>
    rw [polydivLoop_succ, ih _ (by omega), getBit_divStep]
    simp [Nat.not_le.mpr hj]

/-- A generator with leading bit 1 clears every bit a window starts at. -/
theorem getBit_polydivLoop_eq_false {g : Bits} (hg : getBit g 0 = true) {k i j : Nat} (D : Bits) (hij : i ≤ j)
    (hj : j < i + k) : getBit (polydivLoop g k i D) j = false := by
  induction k generalizing i D with
  | zero => omega
  | succ k ih =>
    rw [polydivLoop_succ]
    obtain rfl | hlt := Nat.eq_or_lt_of_le hij
    · rw [getBit_polydivLoop_of_lt _ _ _ (Nat.lt_succ_self i), getBit_divStep]
      simp [hg]
    · exact ih _ hlt (by omega)

/-- Where no window starts with a 1 the loop changes nothing. -/
theorem polydivLoop_of_clear (g : Bits) {k i : Nat} {D : Bits}
    (h : ∀ j, i ≤ j → j < i + k → getBit D j = false) : polydivLoop g k i D = D := by
  induction k generalizing i with
  | zero => rfl
  | succ k ih =>
    have hstep : divStep g i D = D := by simp [divStep, h i le_rfl (by omega)]
    rw [polydivLoop_succ, hstep, ih fun j hij hj => h j (by omega) (by omega)]

/-- Division is linear in the bits of the dividend (41_crc.md R179 (a)). -/
theorem getBit_polydivBy_xor (g : Bits) {D u w : Bits} (hu : u.length = D.length) (hw : w.length = D.length)
    (h : ∀ j, getBit D j = (getBit u j ^^ getBit w j)) (j : Nat) :
    getBit (polydivBy g D) j = (getBit (polydivBy g u) j ^^ getBit (polydivBy g w) j) := by
  rw [polydivBy, polydivBy, polydivBy, hu, hw, getBit_polydivLoop_xor g _ _ h]

/-- After division only the last `len(g) - 1` bits can be 1 (41_crc.md R171). -/
theorem getBit_polydivBy_eq_false {g D : Bits} (hg : getBit g 0 = true) {j : Nat} (hj : j + g.length ≤ D.length) :
    getBit (polydivBy g D) j = false :=
  getBit_polydivLoop_eq_false hg D (Nat.zero_le j) (by omega)

/-- A vector with nothing before its last `len(g) - 1` bits is its own remainder. -/
theorem polydivBy_of_clear {g D : Bits} (h : ∀ j, j + g.length ≤ D.length → getBit D j = false) :
    polydivBy g D = D :=
  polydivLoop_of_clear g fun j _ hj => h j (by omega)

/-- A vector is all zeros exactly when every bit reads 0. -/
theorem all_not_iff (v : Bits) : v.all (! ·) = true ↔ ∀ i, getBit v i = false := by
  simp only [List.all_eq_true, Bool.not_eq_true', List.mem_iff_getElem?, getBit, List.getD_eq_getElem?_getD]
  constructor
  · intro h i
    cases hi : v[i]? with
    | none => rfl
    | some b => exact h b ⟨i, hi⟩
  · rintro h b ⟨i, hi⟩
    simpa [hi] using h i

/-- The check asks that every bit of the division is 0 (41_crc.md R174). -/
theorem crcOkBy_iff (g c : Bits) : crcOkBy g c = true ↔ ∀ i, getBit (polydivBy g c) i = false := all_not_iff _

@[simp] theorem length_xorVec (u w : Bits) : (xorVec u w).length = min u.length w.length := List.length_zipWith

theorem getBit_xorVec {u w : Bits} (h : u.length = w.length) (i : Nat) :
    getBit (xorVec u w) i = (getBit u i ^^ getBit w i) := by
  by_cases hi : i < u.length
  · simp [getBit, xorVec, hi, h ▸ hi]
  · rw [getBit_of_ge u i (by omega), getBit_of_ge w i (by omega), getBit_of_ge _ i (by simp; omega)]
    rfl

theorem getBit_replicate_false (n i : Nat) : getBit (List.replicate n false) i = false :=
  getBit_append_replicate_false [] n i

theorem getBit_replicate_false_append (n : Nat) (v : Bits) (i : Nat) :
    getBit (List.replicate n false ++ v) i = (decide (n ≤ i) && getBit v (i - n)) := by
  rw [getBit_append, List.length_replicate, getBit_replicate_false]
  by_cases hi : i < n
  · simp [hi, Nat.not_le.mpr hi]
  · simp [hi, Nat.not_lt.mp hi]

/-- The remainder bits are the end of the divided zero-augmented vector (41_crc.md R172). -/
theorem getBit_crcRemBy (g v : Bits) (j : Nat) :
    getBit (crcRemBy g v) j = getBit (polydivBy g (v ++ List.replicate (g.length - 1) false)) (v.length + j) := by
  by_cases hj : j < g.length - 1
  · simp [crcRemBy, getBit, hj]
  · rw [getBit_of_ge _ j (by simp; omega), getBit_of_ge _ _ (by simp; omega)]

/-- Dividing `a` followed by a trailer leaves the trailer XOR the remainder of `a`: the trailer alone is its own
remainder, and `a` followed by zeros leaves the remainder of `a`. -/
theorem getBit_polydivBy_append {g : Bits} (hg : getBit g 0 = true) (a : Bits) {t : Bits}
    (ht : t.length + 1 = g.length) (j : Nat) :
    getBit (polydivBy g (a ++ t)) j =
      (decide (a.length ≤ j) && (getBit (crcRemBy g a) (j - a.length) ^^ getBit t (j - a.length))) := by
  have hbit : ∀ k, getBit (a ++ t) k = (getBit (a ++ List.replicate (g.length - 1) false) k ^^
      getBit (List.replicate a.length false ++ t) k) := fun k => by
    rw [getBit_append_replicate_false, getBit_replicate_false_append, getBit_append]
    by_cases hk : k < a.length
    · simp [hk, Nat.not_le.mpr hk]
    · simp [hk, Nat.not_lt.mp hk, getBit_of_ge a k]
  have hown : polydivBy g (List.replicate a.length false ++ t) = List.replicate a.length false ++ t :=
    polydivBy_of_clear fun k hk => by
      rw [List.length_append, List.length_replicate] at hk
      rw [getBit_replicate_false_append, decide_eq_false (by omega), Bool.false_and]
  rw [getBit_polydivBy_xor g (by simp; omega) (by simp) hbit, hown, getBit_replicate_false_append]
  by_cases hj : j < a.length
  · rw [getBit_polydivBy_eq_false hg (by simp; omega)]
    simp [Nat.not_le.mpr hj]
  · rw [getBit_crcRemBy, Nat.add_sub_cancel' (Nat.not_lt.mp hj)]
    simp [Nat.not_lt.mp hj]

/-- The check compares the trailer with the remainder of the rest (41_crc.md R179 (b), (c)). -/
theorem crcOkBy_append_iff {g : Bits} (hg : getBit g 0 = true) (a : Bits) {t : Bits}
    (ht : t.length + 1 = g.length) : crcOkBy g (a ++ t) = true ↔ crcRemBy g a = t := by
  simp only [crcOkBy_iff, getBit_polydivBy_append hg a ht]
  constructor
  · intro h
    refine bits_ext (by simp; omega) fun i => ?_
    simpa using h (a.length + i)
  · rintro rfl i
    simp

/-! ### The closed forms of x^16 + 1 -/

@[simp] theorem xorOver_nil (f : Nat → Bool) : xorOver [] f = false := rfl

@[simp] theorem xorOver_cons (a : Nat) (l : List Nat) (f : Nat → Bool) :
    xorOver (a :: l) f = (f a ^^ xorOver l f) := rfl

theorem xorOver_append (l l' : List Nat) (f : Nat → Bool) : xorOver (l ++ l') f = (xorOver l f ^^ xorOver l' f) := by
  induction l with
  | nil => simp
  | cons a l ih => simp [ih]

theorem xorOver_map (l : List Nat) (e : Nat → Nat) (f : Nat → Bool) :
    xorOver (l.map e) f = xorOver l fun i => f (e i) := by
  simp [xorOver, List.foldr_map]

theorem xorOver_filter (l : List Nat) (p f : Nat → Bool) :
    xorOver (l.filter p) f = xorOver l fun i => p i && f i := by
  induction l with
  | nil => rfl
  | cons a l ih => cases h : p a <;> simp [h, ih]

theorem xorOver_xor (l : List Nat) (f f' : Nat → Bool) :
    xorOver l (fun i => f i ^^ f' i) = (xorOver l f ^^ xorOver l f') := by
  induction l with
  | nil => rfl
  | cons a l ih => simp only [xorOver_cons, ih, Bool.xor_assoc, Bool.xor_left_comm]

theorem xorOver_congr {l : List Nat} {f f' : Nat → Bool} (h : ∀ i ∈ l, f i = f' i) : xorOver l f = xorOver l f' := by
  induction l with
  | nil => rfl
  | cons a l ih =>
    rw [xorOver_cons, xorOver_cons, h a (by simp), ih fun i hi => h i (by simp [hi])]

theorem xorOver_eq_false {l : List Nat} {f : Nat → Bool} (h : ∀ i ∈ l, f i = false) : xorOver l f = false := by
  induction l with
  | nil => rfl
  | cons a l ih => rw [xorOver_cons, h a (by simp), ih fun i hi => h i (by simp [hi])]; rfl

/-- Only one index counts. -/
theorem xorOver_range_single {n a : Nat} (ha : a < n) (f : Nat → Bool) :
    xorOver (List.range n) (fun i => decide (i = a) && f i) = f a := by
  induction n with
  | zero => omega
  | succ n ih =>
    rw [List.range_succ, xorOver_append]
    by_cases han : a = n
    · subst han
      rw [xorOver_eq_false fun i hi => by simp [(List.mem_range.mp hi).ne]]
      simp
    · rw [ih (by omega)]
      simp [Ne.symm han]

theorem residueParity_eq (v : Bits) (r : Nat) :
    residueParity v r = xorOver (List.range v.length) fun i => decide (i % 16 = r % 16) && getBit v i :=
  xorOver_filter _ _ _

theorem residueParity_congr (v : Bits) {r r' : Nat} (h : r % 16 = r' % 16) :
    residueParity v r = residueParity v r' := by
  rw [residueParity, residueParity, h]

theorem residueParity_eq_false {v : Bits} (h : ∀ i, getBit v i = false) (r : Nat) : residueParity v r = false := by
  rw [residueParity_eq]
  exact xorOver_eq_false fun i _ => by rw [h, Bool.and_false]

/-- The parity of a concatenation: in the second part the classes are shifted by the length of the first. -/
theorem residueParity_append (u w : Bits) (r : Nat) :
    residueParity (u ++ w) (u.length + r) = (residueParity u (u.length + r) ^^ residueParity w r) := by
  have hclass : ∀ i, (u.length + i) % 16 = (u.length + r) % 16 ↔ i % 16 = r % 16 := by omega
  rw [residueParity_eq, List.length_append, List.range_add, xorOver_append, xorOver_map, residueParity_eq u,
    residueParity_eq w]
  congr 1
  · exact xorOver_congr fun i hi => by rw [getBit_append, if_pos (List.mem_range.mp hi)]
  · simp [getBit_append, hclass]

/-- Flipping a bit adds the vector that is 1 at its index only. -/
theorem getBit_flipBit_xor (v : Bits) (i j : Nat) : getBit (flipBit v i) j = (getBit v j ^^ decide (j = i)) := by
  rw [getBit_flipBit]
  by_cases h : j = i <;> simp [h]

/-- Flipping a bit changes the parity of its own class. -/
theorem residueParity_flipBit {v : Bits} {i : Nat} (hi : i < v.length) (r : Nat) :
    residueParity (flipBit v i) r = (residueParity v r ^^ decide (i % 16 = r % 16)) := by
  have hlen : (flipBit v i).length = v.length := by simp; omega
  rw [residueParity_eq, hlen]
  simp only [getBit_flipBit_xor, Bool.and_xor_distrib_left, xorOver_xor, ← residueParity_eq]
  simp only [Bool.and_comm (decide (_ % 16 = r % 16))]
  rw [xorOver_range_single hi]

/-- The generator x^16 + 1 flips the leading bit of the window and the bit 16 further on. -/
theorem divStep_gen {D : Bits} {i : Nat} (h : i + 17 ≤ D.length) (hi : getBit D i = true) :
    divStep Config.gen i D = flipBit (flipBit D i) (i + 16) := by
  refine bits_ext (by rw [length_divStep h]; simp; omega) fun j => ?_
  have hgen : (decide (i ≤ j) && getBit Config.gen (j - i)) = (decide (j = i) ^^ decide (j = i + 16)) := by
    rw [getBit_gen]
    by_cases h0 : j = i
    · simp [h0]
    · simp only [h0, decide_false, Bool.false_xor, ← Bool.decide_and, decide_eq_decide]
      omega
  rw [getBit_divStep, hi, hgen, Bool.true_and, getBit_flipBit_xor, getBit_flipBit_xor, Bool.xor_assoc]

/-- The two bits an iteration flips are in one class, so every parity stays. -/
theorem residueParity_divStep {D : Bits} {i : Nat} (h : i + 17 ≤ D.length) (r : Nat) :
    residueParity (divStep Config.gen i D) r = residueParity D r := by
  cases hi : getBit D i with
  | false => simp [divStep, hi]
  | true =>
    rw [divStep_gen h hi, residueParity_flipBit (by simp; omega), residueParity_flipBit (by omega),
      Nat.add_mod_right]
    simp

/-- Division by x^16 + 1 keeps the parity of each residue class modulo 16 (41_crc.md R180). -/
theorem residueParity_polydivLoop {k i : Nat} {D : Bits} (h : i + k + 16 ≤ D.length) (r : Nat) :
    residueParity (polydivLoop Config.gen k i D) r = residueParity D r := by
  induction k generalizing i D with
  | zero => rfl
  | succ k ih =>
    have hwindow : i + 17 ≤ D.length := by omega
    rw [polydivLoop_succ, ih (by rw [length_divStep hwindow]; omega), residueParity_divStep hwindow]

theorem residueParity_polydiv (D : Bits) (r : Nat) : residueParity (polydiv D) r = residueParity D r := by
  by_cases h : D.length < 17
  · rw [polydiv, polydivBy_of_short _ _ h]
  · exact residueParity_polydivLoop (by rw [length_gen]; omega) r

/-- Each of the last 16 bits of the division is the parity of its class in the dividend: no other bit of the class is
left (41_crc.md R180). -/
theorem getBit_polydiv {D : Bits} {i : Nat} (hi : i < D.length) (hlast : D.length ≤ i + 16) :
    getBit (polydiv D) i = residueParity D i := by
  rw [← residueParity_polydiv, residueParity_eq, length_polydiv, ← xorOver_range_single hi (getBit (polydiv D))]
  refine xorOver_congr fun j hj => ?_
  have hj' := List.mem_range.mp hj
  by_cases hclear : j + 17 ≤ D.length
  · have hz : getBit (polydiv D) j = false := getBit_polydivBy_eq_false (by decide) hclear
    simp [hz]
  · congr 1
    rw [decide_eq_decide]
    omega

/-- The remainder is the fold of the vector in words of 16 bits aligned at its end (41_crc.md R180). -/
theorem getBit_crcRem (v : Bits) {j : Nat} (hj : j < 16) :
    getBit (crcRem v) j = residueParity v (v.length + j) := by
  have hzeros : residueParity (v ++ List.replicate 16 false) (v.length + j) = residueParity v (v.length + j) := by
    rw [residueParity_append, residueParity_eq_false (getBit_replicate_false 16), Bool.xor_false]
  rw [← hzeros, ← getBit_polydiv (by simp; omega) (by simp)]
  exact getBit_crcRemBy Config.gen v j

/-- A vector that passes has an even number of ones in every class (41_crc.md R182). -/
theorem residueParity_of_crcOk {e : Bits} (h : crcOk e = true) (r : Nat) : residueParity e r = false := by
  rw [← residueParity_polydiv]
  exact residueParity_eq_false ((crcOkBy_iff _ _).mp h) r

theorem crcOk_of_residueParity {e : Bits} (h : ∀ j, j < 16 → residueParity e (e.length + j) = false) :
    crcOk e = true := by
  refine (crcOkBy_iff _ _).mpr fun i => ?_
  by_cases hi : i < e.length
  · by_cases hclear : i + 17 ≤ e.length
    · exact getBit_polydivBy_eq_false (by decide) hclear
    · have hclass : (e.length + (i + 16 - e.length)) % 16 = i % 16 := by omega
      exact (getBit_polydiv hi (by omega)).trans ((residueParity_congr e hclass).symm.trans (h _ (by omega)))
  · exact getBit_of_ge _ _ (by simp; omega)

/-! ### The trailer of a chunk -/

/-- The two bytes of a 16-bit vector, by their bits (20_memory.md R72). -/
theorem bytes_eq_pair {v : Bits} (hv : v.length = 16) {x y : Byte} (hx : ∀ b < 8, getBit v b = x.getLsbD b)
    (hy : ∀ b < 8, getBit v (8 + b) = y.getLsbD b) : bytes v = [x, y] := by
  obtain ⟨x', y', hpair⟩ := List.length_eq_two.mp (show (bytes v).length = 2 by simp [hv])
  have hbit := getLsbD_getD_bytes v
  rw [hpair] at hbit ⊢
  have hx' : x' = x := BitVec.eq_of_getLsbD_eq fun b hb =>
    (hbit 0 b hb).trans (by rw [Nat.mul_zero, Nat.zero_add, hx b hb])
  have hy' : y' = y := BitVec.eq_of_getLsbD_eq fun b hb => (hbit 1 b hb).trans (hy b hb)
  rw [hx', hy']

/-- The fold of a chunk by its first byte, which counts when its distance from the end has the parity. -/
theorem alternateFold_cons (x : Byte) (P : List Byte) (parity : Nat) :
    alternateFold (x :: P) parity =
      (if (P.length + 1) % 2 = parity then x else 0) ^^^ alternateFold P parity := by
  simp only [alternateFold, List.length_cons, List.range_succ_eq_map, List.filter_cons, List.filter_map]
  split <;> simp_all [List.foldr_map, Function.comp_def]

theorem residueParity_byteBits (x : Byte) (r : Nat) :
    residueParity (byteBits x) r = (decide (r % 16 < 8) && x.getLsbD (r % 16)) := by
  rw [residueParity_eq, length_byteBits]
  by_cases hr : r % 16 < 8
  · rw [← getBit_byteBits, ← xorOver_range_single hr (getBit (byteBits x)), decide_eq_true hr, Bool.true_and]
    refine xorOver_congr fun i hi => ?_
    rw [Nat.mod_eq_of_lt (by have := List.mem_range.mp hi; omega)]
  · rw [decide_eq_false hr, Bool.false_and]
    refine xorOver_eq_false fun i hi => ?_
    have := List.mem_range.mp hi
    rw [decide_eq_false (by omega), Bool.false_and]

/-- Each fold of a chunk, bit by bit, is the parity of a residue class of its bits (41_crc.md R181). -/
theorem residueParity_bits (P : List Byte) {t b : Nat} (ht : t < 2) (hb : b < 8) :
    residueParity (bits P) (8 * P.length + (8 * t + b)) = (alternateFold P t).getLsbD b := by
  induction P with
  | nil => simp [residueParity_eq, alternateFold]
  | cons x P ih =>
    have hsplit : 8 * (x :: P).length + (8 * t + b) = (byteBits x).length + (8 * P.length + (8 * t + b)) := by
      simp; omega
    rw [hsplit, bits_cons, residueParity_append, ih, residueParity_byteBits, alternateFold_cons, BitVec.getLsbD_xor,
      length_byteBits]
    congr 1
    by_cases hpar : (P.length + 1) % 2 = t
    · have hmod : (8 + (8 * P.length + (8 * t + b))) % 16 = b := by omega
      simp [hmod, hpar, hb]
    · have hmod : ¬ (8 + (8 * P.length + (8 * t + b))) % 16 < 8 := by omega
      simp [hmod, hpar]

/-! ### The outcomes of each command -/

section
variable {rd : VReg} {rs : VSrc} {s : State}

theorem exec_crcDiv : exec (.crcDiv rd rs) s = .next { s.writeV rd (polydiv (s.readSrc rs)) with status := 0 } := rfl

theorem exec_crcRem : exec (.crcRem rs) s =
    .next { s with res := BitVec.ofNat 16 (bitsToNat (crcRem (s.readSrc rs))), status := 0 } := rfl

theorem exec_crcAppend_of_le (h : (s.readSrc rs).length ≤ 240) : exec (.crcAppend rd rs) s =
    .next { s.writeV rd (crcAppend (s.readSrc rs)) with status := 0 } :=
  if_neg fun (hover : 256 < _ + 16) => by omega

theorem exec_crcAppend_of_overflow (h : 240 < (s.readSrc rs).length) :
    exec (.crcAppend rd rs) s = refuse .bvOverflow s :=
  if_pos (show 256 < _ + 16 by omega)

theorem exec_crcVerify_of_ok (h : crcOk (s.readSrc rs) = true) : exec (.crcVerify rs) s =
    .next { s with res := 1, status := 0 } :=
  if_pos h

theorem exec_crcVerify_of_mismatch (h : crcOk (s.readSrc rs) = false) : exec (.crcVerify rs) s =
    fail .crcMismatch { s with res := 0 } :=
  if_neg (by simp [h])

end

end Sys2Proof.Machine

section
open Sys2Proof Sys2Proof.Machine

/-- Settles O32: bit by bit, the division is linear. -/
theorem polydivIsLinear : Obligations.PolydivIsLinear := by
  intro g u w _ _ hlen
  refine bits_ext (by simp) fun i => ?_
  rw [getBit_xorVec (by simpa using hlen)]
  exact getBit_polydivBy_xor g (by simp [hlen]) (by simp [hlen]) (getBit_xorVec hlen) i

/-- Settles O33: both parts are the check of a vector followed by a trailer of 16 bits. -/
theorem crcCheckIsRemainderComparison : Obligations.CrcCheckIsRemainderComparison := by
  intro g v hlen hg
  refine ⟨(crcOkBy_append_iff hg v (by simp [hlen])).mpr rfl, fun h16 => ?_⟩
  have hiff := crcOkBy_append_iff hg (v.take (v.length - 16)) (t := v.drop (v.length - 16)) (by simp; omega)
  rwa [List.take_append_drop] at hiff

/-- Settles O29: the remainder is the end of a division by x^16 + 1, which keeps the parity of each class. -/
theorem crcIsTheLongitudinalFold : Obligations.CrcIsTheLongitudinalFold :=
  fun v _ hj => getBit_crcRem v hj

/-- Settles O27: the quotient bits are cleared, each other bit is the parity of its class. -/
theorem crcDivLeavesTheRemainder : Obligations.CrcDivLeavesTheRemainder := by
  intro rd rs s
  refine ⟨(encode_eq_wordOf (i := .crcDiv rd rs) rfl :), _, exec_crcDiv, length_polydiv _,
    polydivBy_of_short Config.gen _, fun h16 i hi => ?_⟩
  by_cases hlast : (s.readSrc rs).length - 16 ≤ i
  · rw [decide_eq_true hlast, Bool.true_and]
    exact getBit_polydiv hi (by omega)
  · rw [decide_eq_false hlast, Bool.false_and]
    exact getBit_polydivBy_eq_false (by decide) (by rw [length_gen]; omega)

/-- Settles O28: RES is the word with the bits of the remainder, whose two bytes are its halves. -/
theorem crcRemPutsTheRemainderInRes : Obligations.CrcRemPutsTheRemainderInRes := by
  intro rs s
  have hres : ∀ j < 16, (BitVec.ofNat 16 (bitsToNat (crcRem (s.readSrc rs)))).getLsbD j =
    getBit (crcRem (s.readSrc rs)) j := getLsbD_ofNat_bitsToNat _ _
  refine ⟨(encode_eq_wordOf (i := .crcRem rs) rfl :), _, exec_crcRem, length_crcRem _, hres, ?_, fun hempty => ?_⟩
  · refine bytes_eq_pair (length_crcRem _) (fun b hb => ?_) fun b hb => ?_
    · rw [← hres b (by omega)]
      simp [hb]
    · rw [← hres _ (by omega)]
      simp [hb]
  · rw [hempty]
    decide

/-- Settles O30: 240 source bits and 16 of the remainder fill a register. -/
theorem crcAppendGivesTheCodeword : Obligations.CrcAppendGivesTheCodeword := by
  intro rd rs s
  exact ⟨(encode_eq_wordOf (i := .crcAppend rd rs) rfl :),
    fun h => ⟨_, length_crcRem _, rfl, exec_crcAppend_of_le h⟩, exec_crcAppend_of_overflow⟩

/-- Settles O31: the check is true when no bit of the division is 1. -/
theorem crcVerifyReportsTheCheck : Obligations.CrcVerifyReportsTheCheck := by
  intro rs s
  refine ⟨(encode_eq_wordOf (i := .crcVerify rs) rfl :), fun h => ?_, fun ⟨b, hb, h1⟩ => ?_⟩
  · exact exec_crcVerify_of_ok (List.all_eq_true.mpr fun b hb => by simp [h b hb])
  · exact exec_crcVerify_of_mismatch (List.all_eq_false.mpr ⟨b, hb, by simp [h1]⟩)

/-- Settles O34: by linearity, by the parities of the classes, and because a flip changes the parity of its class. -/
theorem crcDetectionPower : Obligations.CrcDetectionPower := by
  refine ⟨fun c e hlen hc => ?_, fun e => ⟨fun he j _ => residueParity_of_crcOk he _, crcOk_of_residueParity⟩,
    fun c i hi hc => ?_⟩
  · have hxor := getBit_polydivBy_xor Config.gen (by simp [hlen]) (by simp [hlen]) (getBit_xorVec hlen)
    simp only [crcOk, crcOkBy_iff] at hc ⊢
    simp [hxor, hc]
  · refine Bool.eq_false_iff.mpr fun hflip => ?_
    have hpar := residueParity_of_crcOk hflip i
    rw [residueParity_flipBit hi, residueParity_of_crcOk hc] at hpar
    simp at hpar

/-- Settles O35: the trailer bytes are the two halves of the remainder, whose bits are parities of residue classes. -/
theorem crcTrailerIsTheAlternateFold : Obligations.CrcTrailerIsTheAlternateFold := by
  intro P
  have hrem : ∀ t < 2, ∀ b < 8, getBit (crcRem (bits P)) (8 * t + b) = (alternateFold P t).getLsbD b :=
    fun t ht b hb => by rw [getBit_crcRem _ (by omega), length_bits, residueParity_bits P ht hb]
  refine bytes_eq_pair (length_crcRem _) (fun b hb => ?_) (hrem 1 (by decide))
  rw [← hrem 0 (by decide) b hb, Nat.mul_zero, Nat.zero_add]

end

namespace Sys2Proof.Machine

/-! ## The Hamming unit (42_hamming.md R201 to R211)

The position of data bit `d` is `d + k + 2` for the `k` with `2^k` below it and `2^(k+1)` above it: the walk has passed
the powers 1 to `2^k`. This one fact describes `hamPos`, and `hamIndex` subtracts what it adds. Each parity bit is an
XOR over the positions, so that flipping data bit `d` adds `hamPos d` to the parity; the syndrome of a single flip is
therefore the position of the flipped bit, data or check, and no two of the positions agree. -/

/-! ### Codeword positions -/

theorem isPow2_iff (n : Nat) : isPow2 n = true ↔ ∃ k, n = 2 ^ k := by
  refine ⟨fun h => ⟨n.log2, eq_of_beq h⟩, ?_⟩
  rintro ⟨k, rfl⟩
  simp [isPow2]

/-- Strictly between two neighbouring powers of two there is none. -/
theorem not_exists_eq_two_pow {p k : Nat} (hl : 2 ^ k < p) (hu : p < 2 ^ (k + 1)) : ¬ ∃ j, p = 2 ^ j := by
  rintro ⟨j, rfl⟩
  have hkj : k < j := (Nat.pow_lt_pow_iff_right (by decide)).mp hl
  have hjk : j < k + 1 := (Nat.pow_lt_pow_iff_right (by decide)).mp hu
  omega

/-- A number that is no power of two lies strictly between the two next to it. -/
theorem two_pow_log2_lt {p : Nat} (hp : p ≠ 0) (h : ¬ ∃ k, p = 2 ^ k) : 2 ^ p.log2 < p ∧ p < 2 ^ (p.log2 + 1) :=
  ⟨lt_of_le_of_ne (Nat.log2_self_le hp) fun he => h ⟨_, he.symm⟩, Nat.lt_log2_self⟩

theorem hamIndex_eq {s k : Nat} (hl : 2 ^ k ≤ s) (hu : s < 2 ^ (k + 1)) : hamIndex s = s - 2 - k := by
  have hs : s ≠ 0 := (Nat.two_pow_pos k |>.trans_le hl).ne'
  rw [hamIndex, (Nat.log2_eq_iff hs).mpr ⟨hl, hu⟩]

theorem lt_nextPos (p : Nat) : p < nextPos p := by
  unfold nextPos
  split <;> omega

theorem hamPos_succ (d : Nat) : hamPos (d + 1) = nextPos (hamPos d) := rfl

/-- Where data bit `d` stands: past `k + 1` powers of two, and before the next (42_hamming.md R201). -/
theorem exists_hamPos_eq (d : Nat) : ∃ k, 2 ^ k < hamPos d ∧ hamPos d < 2 ^ (k + 1) ∧ hamPos d = d + k + 2 := by
  induction d with
  | zero => exact ⟨1, by decide⟩
  | succ d ih =>
    obtain ⟨k, hl, hu, heq⟩ := ih
    rw [hamPos_succ, nextPos]
    by_cases hlast : hamPos d + 1 = 2 ^ (k + 1)
    · have hk : 2 ^ (k + 1) ≠ 1 := by have := Nat.two_pow_pos k; omega
      refine ⟨k + 1, ?_⟩
      rw [if_pos ((isPow2_iff _).mpr ⟨_, hlast⟩), Nat.pow_succ 2 (k + 1)]
      omega
    · have hno := not_exists_eq_two_pow (p := hamPos d + 1) (k := k) (by omega) (by omega)
      refine ⟨k, ?_⟩
      rw [if_neg (mt (isPow2_iff _).mp hno)]
      omega

theorem three_le_hamPos (d : Nat) : 3 ≤ hamPos d := by
  obtain ⟨k, hl, hu, heq⟩ := exists_hamPos_eq d
  cases k <;> omega

theorem hamPos_ne_two_pow (d : Nat) : ¬ ∃ k, hamPos d = 2 ^ k := by
  obtain ⟨k, hl, hu, -⟩ := exists_hamPos_eq d
  exact not_exists_eq_two_pow hl hu

/-- `hamIndex` undoes `hamPos` (42_hamming.md R202). -/
@[simp] theorem hamIndex_hamPos (d : Nat) : hamIndex (hamPos d) = d := by
  obtain ⟨k, hl, hu, heq⟩ := exists_hamPos_eq d
  rw [hamIndex_eq hl.le hu]
  omega

/-- The numbers below `2^k` that are positions of data bits, or 0, become more with `k`. -/
theorem two_pow_sub_le {j k : Nat} (h : j ≤ k) : 2 ^ j - j ≤ 2 ^ k - k := by
  refine monotone_nat_of_le_succ (f := fun k => 2 ^ k - k) (fun k => ?_) h
  have := Nat.two_pow_pos k
  rw [Nat.pow_succ]
  omega

/-- The data bits whose positions have `n` bits at most (42_hamming.md R204). -/
theorem hamPos_lt_two_pow {d n : Nat} (h : d + n + 2 ≤ 2 ^ n) : hamPos d < 2 ^ n := by
  obtain ⟨k, hl, hu, heq⟩ := exists_hamPos_eq d
  have hkn : k < n := by
    by_contra hnk
    have := two_pow_sub_le (Nat.not_lt.mp hnk)
    omega
  exact hu.trans_le (Nat.pow_le_pow_right (by decide) hkn)

/-- Data bit `d` cannot stand between two powers of two and again between two later ones. -/
theorem le_of_slot {d j k : Nat} (hj : d + j + 2 < 2 ^ (j + 1)) (hk : 2 ^ k < d + k + 2) : k ≤ j := by
  by_contra hjk
  have := two_pow_sub_le (Nat.not_le.mp hjk)
  omega

/-- `hamPos` undoes `hamIndex` on all that is no power of two (42_hamming.md R202). -/
theorem hamPos_hamIndex {p : Nat} (hp : p ≠ 0) (h : ¬ ∃ k, p = 2 ^ k) : hamPos (hamIndex p) = p := by
  obtain ⟨hl, hu⟩ := two_pow_log2_lt hp h
  generalize p.log2 = k at hl hu
  have hidx : p = hamIndex p + k + 2 := by
    have := k.lt_two_pow_self
    rw [hamIndex_eq hl.le hu]
    omega
  obtain ⟨j, hjl, hju, heq⟩ := exists_hamPos_eq (hamIndex p)
  rw [heq] at hjl hju
  have hkj : k ≤ j := le_of_slot hju (hidx ▸ hl)
  have hjk : j ≤ k := le_of_slot (hidx ▸ hu) hjl
  omega

/-! ### The parity, bit by bit -/

theorem getLsbD_hamParityFrom (d : Nat) (v : Bits) {k : Nat} (hk : k < 8) : (hamParityFrom d v).getLsbD k =
    xorOver (List.range v.length) fun i => (hamPos (d + i)).testBit k && getBit v i := by
  induction v generalizing d with
  | nil => exact BitVec.getLsbD_zero
  | cons b v ih =>
    rw [hamParityFrom, BitVec.getLsbD_xor, ih, List.length_cons, List.range_succ_eq_map, xorOver_cons, xorOver_map]
    congr 1
    · cases b with
      | false => simp [getBit]
      | true => simp [getBit, BitVec.getLsbD_ofNat, hk, -BitVec.getLsbD_eq_getElem]
    · simp [getBit, Nat.add_assoc, Nat.add_comm 1]

/-- Check bit `k` is the parity of the data bits whose position has bit `k` set (42_hamming.md R204). -/
theorem getLsbD_hamParity (v : Bits) {k : Nat} (hk : k < 8) : (hamParity v).getLsbD k =
    xorOver (List.range v.length) fun d => (hamPos d).testBit k && getBit v d := by
  rw [hamParity, getLsbD_hamParityFrom 0 v hk]
  simp only [Nat.zero_add]

theorem length_flipBit_of_lt {v : Bits} {i : Nat} (h : i < v.length) : (flipBit v i).length = v.length := by
  rw [length_flipBit]
  omega

/-- Flipping a data bit adds its position to the parity (42_hamming.md R203). -/
theorem hamParity_flipBit {v : Bits} {d : Nat} (hd : d < v.length) :
    hamParity (flipBit v d) = hamParity v ^^^ BitVec.ofNat 8 (hamPos d) := by
  refine BitVec.eq_of_getLsbD_eq fun k hk => ?_
  rw [BitVec.getLsbD_xor, getLsbD_hamParity _ hk, getLsbD_hamParity _ hk, length_flipBit_of_lt hd]
  simp only [getBit_flipBit_xor, Bool.and_xor_distrib_left, xorOver_xor, Bool.and_comm _ (decide (_ = d))]
  rw [xorOver_range_single hd fun i => (hamPos i).testBit k, BitVec.getLsbD_ofNat, decide_eq_true hk, Bool.true_and]

/-! ### The correction by its syndrome (42_hamming.md R205, R206) -/

/-- A syndrome that is a power of two is not 0. -/
theorem ne_zero_of_toNat_eq_two_pow {x : Byte} (h : ∃ k, x.toNat = 2 ^ k) : x ≠ 0 := by
  rintro rfl
  obtain ⟨k, hk⟩ := h
  exact (Nat.two_pow_pos k).ne hk

section
variable {v : Bits} {par syn : Byte} (hsyn : syn = hamParity v ^^^ par)
include hsyn

/-- The correction as a function of the syndrome. -/
theorem hamCorrect_eq_of_syndrome : hamCorrect v par =
    if syn = 0 then (v, syn, .noError)
    else if isPow2 syn.toNat then (v, syn, .checkBitError)
    else if hamIndex syn.toNat < v.length then (flipBit v (hamIndex syn.toNat), syn, .dataCorrected)
    else (v, syn, .outOfRange) := by
  rw [hsyn, hamCorrect]

theorem hamCorrect_of_zero (h0 : syn = 0) : hamCorrect v par = (v, 0, .noError) := by
  rw [hamCorrect_eq_of_syndrome hsyn, if_pos h0, h0]

theorem hamCorrect_of_check (hpow : ∃ k, syn.toNat = 2 ^ k) : hamCorrect v par = (v, syn, .checkBitError) := by
  rw [hamCorrect_eq_of_syndrome hsyn, if_neg (ne_zero_of_toNat_eq_two_pow hpow), if_pos ((isPow2_iff _).mpr hpow)]

theorem hamCorrect_of_data (h0 : syn ≠ 0) (hpow : ¬ ∃ k, syn.toNat = 2 ^ k) (hslot : hamIndex syn.toNat < v.length) :
    hamCorrect v par = (flipBit v (hamIndex syn.toNat), syn, .dataCorrected) := by
  rw [hamCorrect_eq_of_syndrome hsyn, if_neg h0, if_neg (mt (isPow2_iff _).mp hpow), if_pos hslot]

theorem hamCorrect_of_outOfRange (h0 : syn ≠ 0) (hpow : ¬ ∃ k, syn.toNat = 2 ^ k)
    (hslot : v.length ≤ hamIndex syn.toNat) : hamCorrect v par = (v, syn, .outOfRange) := by
  rw [hamCorrect_eq_of_syndrome hsyn, if_neg h0, if_neg (mt (isPow2_iff _).mp hpow), if_neg (Nat.not_lt.mpr hslot)]

end

/-- Flipping a bit twice gives the vector back. -/
theorem flipBit_flipBit {v : Bits} {i : Nat} (h : i < v.length) : flipBit (flipBit v i) i = v := by
  refine bits_ext (by simp; omega) fun j => ?_
  simp [getBit_flipBit_xor]

/-- A single data flip is undone (42_hamming.md R211 (b)). -/
theorem hamCorrect_flipBit {v : Bits} (hv : v.length ≤ 247) {d : Nat} (hd : d < v.length) :
    hamCorrect (flipBit v d) (hamParity v) = (v, BitVec.ofNat 8 (hamPos d), .dataCorrected) := by
  have hsyn : BitVec.ofNat 8 (hamPos d) = hamParity (flipBit v d) ^^^ hamParity v := by
    rw [hamParity_flipBit hd, BitVec.xor_comm (hamParity v), BitVec.xor_assoc, BitVec.xor_self, BitVec.xor_zero]
  have hnat : (BitVec.ofNat 8 (hamPos d)).toNat = hamPos d :=
    Nat.mod_eq_of_lt (hamPos_lt_two_pow (by omega))
  have h0 : BitVec.ofNat 8 (hamPos d) ≠ 0 := fun h => by
    have hzero : hamPos d = 0 := hnat.symm.trans (congrArg BitVec.toNat h)
    have := three_le_hamPos d
    omega
  have hpow : ¬ ∃ k, (BitVec.ofNat 8 (hamPos d)).toNat = 2 ^ k := hnat.symm ▸ hamPos_ne_two_pow d
  have hidx : hamIndex (BitVec.ofNat 8 (hamPos d)).toNat = d := by rw [hnat, hamIndex_hamPos]
  rw [hamCorrect_of_data hsyn h0 hpow (by rwa [hidx, length_flipBit_of_lt hd]), hidx, flipBit_flipBit hd]

/-- A single flip of a check bit leaves the data (42_hamming.md R211 (c)). -/
theorem hamCorrect_checkFlip (v : Bits) {k : Nat} (hk : k < 8) :
    hamCorrect v (hamParity v ^^^ BitVec.ofNat 8 (2 ^ k)) = (v, BitVec.ofNat 8 (2 ^ k), .checkBitError) :=
  hamCorrect_of_check (by rw [← BitVec.xor_assoc, BitVec.xor_self, BitVec.zero_xor])
    ⟨k, Nat.mod_eq_of_lt (Nat.pow_lt_pow_right (by decide) hk)⟩

/-! ### The codeword -/

/-- The bits of a byte as a number give the byte back. -/
theorem ofNat_bitsToNat_byteBits (x : Byte) : BitVec.ofNat 8 (bitsToNat (byteBits x)) = x :=
  BitVec.eq_of_getLsbD_eq fun b hb => by rw [getLsbD_ofNat_bitsToNat _ _ _ hb, getBit_byteBits]

/-- A flip in the first part of a concatenation. -/
theorem flipBit_append_of_lt {u : Bits} (w : Bits) {i : Nat} (h : i < u.length) :
    flipBit (u ++ w) i = flipBit u i ++ w := by
  refine bits_ext (by simp; omega) fun j => ?_
  simp only [getBit_flipBit_xor, getBit_append, length_flipBit_of_lt h]
  split
  · rfl
  · rw [decide_eq_false (by omega), Bool.xor_false]

/-- A flip in the second part. -/
theorem flipBit_append_add (u : Bits) {w : Bits} {k : Nat} (h : k < w.length) :
    flipBit (u ++ w) (u.length + k) = u ++ flipBit w k := by
  refine bits_ext (by simp; omega) fun j => ?_
  simp only [getBit_flipBit_xor, getBit_append]
  split
  · rw [decide_eq_false (by omega), Bool.xor_false]
  · congr 1
    rw [decide_eq_decide]
    omega

theorem flipBit_byteBits (x : Byte) {k : Nat} (hk : k < 8) :
    flipBit (byteBits x) k = byteBits (x ^^^ BitVec.ofNat 8 (2 ^ k)) := by
  refine bits_ext (by simp; omega) fun j => ?_
  rw [getBit_flipBit_xor, getBit_byteBits, getBit_byteBits, BitVec.getLsbD_xor, BitVec.getLsbD_ofNat,
    Nat.testBit_two_pow]
  congr 1
  rw [← Bool.decide_and, decide_eq_decide]
  omega

/-- A codeword with one bit flipped is again a vector and a parity byte, from which `hamCorrect` tells the data and
whether a data bit was hit (42_hamming.md R211). -/
theorem exists_flipBit_codeword {v : Bits} (hv : v.length ≤ 247) {i : Nat} (hi : i < v.length + 8) :
    ∃ w par syn cls, flipBit (v ++ byteBits (hamParity v)) i = w ++ byteBits par ∧ w.length = v.length ∧
      hamCorrect w par = (v, syn, cls) ∧ cls.code = if i < v.length then 1 else 2 := by
  by_cases hdata : i < v.length
  · refine ⟨_, _, _, _, flipBit_append_of_lt _ hdata, length_flipBit_of_lt hdata, hamCorrect_flipBit hv hdata, ?_⟩
    rw [if_pos hdata]
    rfl
  · obtain ⟨k, rfl⟩ := Nat.exists_eq_add_of_le (Nat.not_lt.mp hdata)
    have hk : k < 8 := by omega
    refine ⟨v, _, _, _, ?_, rfl, hamCorrect_checkFlip v hk, (if_neg hdata).symm⟩
    rw [flipBit_append_add v (by simpa using hk), flipBit_byteBits _ hk]

/-! ### The outcomes of each command -/

section
variable {rd : VReg} {rs : VSrc} {par : Byte} {s : State}

theorem exec_hamParity_of_le (h : (s.readSrc rs).length ≤ 247) : exec (.hamParity rs) s =
    .next { s with res := (hamParity (s.readSrc rs)).setWidth 16, status := 0 } :=
  if_neg (Nat.not_lt.mpr h)

theorem exec_hamParity_of_long (h : 247 < (s.readSrc rs).length) : exec (.hamParity rs) s = refuse .hamRange s :=
  if_pos h

theorem exec_hamAppend_of_le (h : (s.readSrc rs).length ≤ 247) : exec (.hamAppend rd rs) s =
    .next { s.writeV rd (s.readSrc rs ++ byteBits (hamParity (s.readSrc rs))) with status := 0 } :=
  if_neg (Nat.not_lt.mpr h)

theorem exec_hamAppend_of_long (h : 247 < (s.readSrc rs).length) : exec (.hamAppend rd rs) s = refuse .hamRange s :=
  if_pos h

theorem exec_hamCorrect_of_le (h : (s.readV rd).length ≤ 247) : exec (.hamCorrect rd par) s =
    finishCorrection rd (hamCorrect (s.readV rd) par) s :=
  if_neg (Nat.not_lt.mpr h)

theorem exec_hamCorrect_of_long (h : 247 < (s.readV rd).length) :
    exec (.hamCorrect rd par) s = refuse .hamRange s :=
  if_pos h

/-- A correction with a nonzero syndrome, by what `hamCorrect` answers. -/
theorem exec_hamCorrect_of_nonzero {w : Bits} {syn : Byte} {cls : HamClass} (h : (s.readV rd).length ≤ 247)
    (hcor : hamCorrect (s.readV rd) par = (w, syn, cls)) (h0 : syn ≠ 0) : exec (.hamCorrect rd par) s =
    .next { s.writeV rd w with
      synd := syn, res := syn.setWidth 16, status := BitVec.ofNat 16 (16 * cls.code), diag := s.diag ||| 0x04 } := by
  rw [exec_hamCorrect_of_le h, finishCorrection_eq, hcor, if_neg h0]

theorem exec_hamVerify_of_codeword {v : Bits} (hc : s.readSrc rs = v ++ byteBits par) (hv : v.length ≤ 247) :
    exec (.hamVerify rd rs) s = finishCorrection rd (hamCorrect v par) s := by
  have hlen : (v ++ byteBits par).length = v.length + 8 := by simp
  have hlong : ¬ Config.hamMaxData + Config.hamBits < v.length + 8 := Nat.not_lt.mpr (Nat.add_le_add_right hv 8)
  have hshort : ¬ v.length + 8 < Config.hamBits := Nat.not_lt.mpr (Nat.le_add_left 8 _)
  simp only [exec, execHamVerify, hc, hlen, if_neg hlong, if_neg hshort, Nat.add_sub_cancel, List.take_left,
    List.drop_left, ofNat_bitsToNat_byteBits]

theorem exec_hamVerify_of_long (h : 255 < (s.readSrc rs).length) : exec (.hamVerify rd rs) s = refuse .hamRange s :=
  if_pos h

theorem exec_hamVerify_of_short (h : (s.readSrc rs).length < 8) : exec (.hamVerify rd rs) s = fail .tooShort s :=
  (if_neg (show ¬ 255 < _ by omega)).trans (if_pos h)

end

/-- What the host reads after a finished correction: the vector, ERR 0 and the class. -/
theorem finishCorrection_outcome (rd : VReg) (r : Bits × Byte × HamClass) (s : State) :
    ∃ u, finishCorrection rd r s = .next u ∧ u.readV rd = r.1 ∧ u.err = 0 ∧ u.hclass = r.2.2.code := by
  obtain ⟨herr, hclass⟩ := statusWord_fields 0 r.2.2 (by decide)
  exact ⟨_, rfl, (State.readV_congr rfl rfl rfl rfl rd).trans (State.readV_writeV_same s rd r.1), herr, hclass⟩

end Sys2Proof.Machine

section
open Sys2Proof Sys2Proof.Machine

/-- Settles O36: a position is one more than its data index and the number of powers of two below it. -/
theorem hamPositionsSkipPowersOfTwo : Obligations.HamPositionsSkipPowersOfTwo :=
  ⟨fun d => ⟨three_le_hamPos d, hamPos_ne_two_pow d, lt_nextPos _, hamIndex_hamPos d⟩,
    fun _ hp => hamPos_hamIndex (by omega), fun s k => hamIndex_eq⟩

/-- Settles O37: bit 7 of a position below 128 is clear. -/
theorem parityCircuitsMatchThePositions : Obligations.ParityCircuitsMatchThePositions := by
  intro v hv
  refine ⟨fun k hk => ?_, fun d hd => hamPos_lt_two_pow (n := 8) (by omega), fun h64 => ?_⟩
  · rw [getLsbD_hamParity v hk, xorOver_filter]
    rfl
  · rw [getLsbD_hamParity v (by decide)]
    refine xorOver_eq_false fun d hd => ?_
    have hd' := List.mem_range.mp hd
    rw [Nat.testBit_lt_two_pow (hamPos_lt_two_pow (n := 7) (by omega)), Bool.false_and]

/-- Settles O38: the appended bits are those of the parity byte. -/
theorem hamParityAndHamAppendResults : Obligations.HamParityAndHamAppendResults := by
  intro rd rs s
  exact ⟨(encode_eq_wordOf (i := .hamParity rs) rfl :), (encode_eq_wordOf (i := .hamAppend rd rs) rfl :),
    fun h => ⟨exec_hamParity_of_le h, _, exec_hamAppend_of_le h, length_byteBits _, fun k _ => getBit_byteBits _ k⟩,
    fun h => ⟨exec_hamParity_of_long h, exec_hamAppend_of_long h⟩⟩

/-- Settles O39: the four classes of the correction, each finished in the same way. -/
theorem hamCorrectFollowsTheSyndrome : Obligations.HamCorrectFollowsTheSyndrome := by
  intro rd par s syn hsyn
  have hword : encode (.hamCorrect rd par) = wordOf 0x31 rd.spec.toNat 0 par.toNat 0 0 := by
    have hpar : (par.setWidth 16).toNat = par.toNat := BitVec.toNat_setWidth_of_le (by decide)
    exact hpar ▸ (encode_eq_wordOf (i := .hamCorrect rd par) rfl :)
  refine ⟨hword, fun hlen => ⟨fun h0 => ?_, fun hpow => ?_, fun h0 hpow hslot => ?_, fun h0 hpow hslot => ?_⟩,
    exec_hamCorrect_of_long⟩
  · rw [exec_hamCorrect_of_le hlen, hamCorrect_of_zero hsyn h0, finishCorrection_eq, State.writeV_readV]
    rfl
  · rw [exec_hamCorrect_of_nonzero hlen (hamCorrect_of_check hsyn hpow) (ne_zero_of_toNat_eq_two_pow hpow),
      State.writeV_readV]
    rfl
  · rw [exec_hamCorrect_of_nonzero hlen (hamCorrect_of_data hsyn h0 hpow hslot) h0, flipBit, setBit_eq_set _ _ _ hslot]
    rfl
  · rw [exec_hamCorrect_of_nonzero hlen (hamCorrect_of_outOfRange hsyn h0 hpow hslot) h0, State.writeV_readV]
    rfl

/-- Settles O40: the last 8 bits are taken off as a byte, the rest is corrected by it. -/
theorem hamVerifyCorrectsTheCodeword : Obligations.HamVerifyCorrectsTheCodeword := by
  intro rd rs s v par
  refine ⟨(encode_eq_wordOf (i := .hamVerify rd rs) rfl :), fun hc hv => ?_, exec_hamVerify_of_long,
    exec_hamVerify_of_short⟩
  rw [exec_hamVerify_of_codeword hc hv, finishCorrection_eq]

/-- Settles O41: the syndrome of a flip is the position of the flipped bit. -/
theorem singleErrorCorrection : Obligations.SingleErrorCorrection :=
  fun v hv => ⟨hamCorrect_of_zero BitVec.xor_self.symm rfl, fun _ => hamCorrect_flipBit hv,
    fun _ => hamCorrect_checkFlip v⟩

/-- Settles O42: the flip is in the data or in the parity byte, and each is a single error of `hamCorrect`. -/
theorem hamVerifyRepairsAnySingleFlip : Obligations.HamVerifyRepairsAnySingleFlip := by
  intro rd rd' rs s i hv hi
  obtain ⟨w, par, syn, cls, hflip, hlen, hcor, hcls⟩ := exists_flipBit_codeword hv hi
  refine ⟨_, exec_hamAppend_of_le hv, ?_⟩
  generalize ht : { s.writeV rd _ with status := (0 : Word16) } = t
  have hread : t.readV rd = s.readSrc rs ++ byteBits (hamParity (s.readSrc rs)) := by
    subst ht
    exact (State.readV_congr rfl rfl rfl rfl rd).trans (State.readV_writeV_same _ _ _)
  rw [exec_hamVerify_of_codeword (v := w) (par := par) (by simp [hread, hflip]) (hlen.trans_le hv), hcor, ← hcls]
  exact finishCorrection_outcome rd' (s.readSrc rs, syn, cls) _

end

namespace Sys2Proof.Machine

/-! ## The escape-sequence parser (43_framing.md R231 to R239)

One byte is described once per row of the table; runs over a list of bytes then follow by induction on the list. What a
scan returns is read off the parser it ends in (`Parser.verdict_eq_ok_iff`): a scan succeeds exactly when that parser
has stopped at a stop tag, and a stopped parser stays as it is. -/

/-! ### One byte (43_framing.md R237) -/

section
variable (c : List Byte) (i : Nat)

theorem Parser.read_start_startTag : Parser.read ⟨.start, c, i⟩ Config.startTag = ⟨.data, c, i + 1⟩ := rfl

theorem Parser.read_start_of_ne {x : Byte} (h : x ≠ Config.startTag) :
    Parser.read ⟨.start, c, i⟩ x = ⟨.missingStart, c, i + 1⟩ := if_neg h

theorem Parser.read_data_stopTag : Parser.read ⟨.data, c, i⟩ Config.stopTag = ⟨.done, c, i + 1⟩ := rfl

theorem Parser.read_data_escTag : Parser.read ⟨.data, c, i⟩ Config.escTag = ⟨.esc, c, i + 1⟩ := rfl

theorem Parser.read_data_of_ne {x : Byte} (h : x ≠ Config.escTag ∧ x ≠ Config.stopTag) :
    Parser.read ⟨.data, c, i⟩ x = ⟨.data, c ++ [x], i + 1⟩ := (if_neg h.2).trans (if_neg h.1)

theorem Parser.read_esc (x : Byte) : Parser.read ⟨.esc, c, i⟩ x = ⟨.data, c ++ [x], i + 1⟩ := rfl

end

/-- A parser that has stopped reads nothing more (log entry 6). -/
theorem Parser.read_of_stopped {p : Parser} (h : p.phase = .done ∨ p.phase = .missingStart) (x : Byte) :
    p.read x = p := by
  rcases h with h | h <;> simp [Parser.read, h]

theorem Parser.foldl_read_of_stopped {p : Parser} (h : p.phase = .done ∨ p.phase = .missingStart) (B : List Byte) :
    B.foldl Parser.read p = p := by
  induction B with
  | nil => rfl
  | cons x B ih => rw [List.foldl_cons, Parser.read_of_stopped h, ih]

theorem Parser.index_read_le (p : Parser) (x : Byte) : (p.read x).index ≤ p.index + 1 := by
  obtain ⟨phase, copy, index⟩ := p
  cases phase <;> simp only [Parser.read] <;> (repeat' split) <;> simp

/-- The parser consumes at most the bytes of the buffer. -/
theorem Parser.index_foldl_read_le (B : List Byte) (p : Parser) :
    (B.foldl Parser.read p).index ≤ p.index + B.length := by
  induction B generalizing p with
  | nil => simp
  | cons x B ih =>
    have hx := p.index_read_le x
    have hB := ih (p.read x)
    simp only [List.foldl_cons, List.length_cons]
    omega

/-- A scan succeeds exactly when its parser has stopped at a stop tag. -/
theorem Parser.verdict_eq_ok_iff {p : Parser} {copy : List Byte} {consumed : Nat} :
    p.verdict = .ok copy consumed ↔ p = ⟨.done, copy, consumed⟩ := by
  obtain ⟨phase, c, i⟩ := p
  cases phase <;> simp [Parser.verdict]

theorem scan_eq_ok_iff {B copy : List Byte} {consumed : Nat} :
    scan B = .ok copy consumed ↔ B.foldl Parser.read Parser.fresh = ⟨.done, copy, consumed⟩ :=
  Parser.verdict_eq_ok_iff

/-! ### The loop of the rule (43_framing.md R238) -/

theorem verdict_foldl_read_eq_scanLoopFrom (B c : List Byte) (i : Nat) :
    (B.foldl Parser.read ⟨.data, c, i⟩).verdict = scanLoopFrom B i false c ∧
    (B.foldl Parser.read ⟨.esc, c, i⟩).verdict = scanLoopFrom B i true c := by
  induction B generalizing c i with
  | nil => exact ⟨rfl, rfl⟩
  | cons x B ih =>
    refine ⟨?_, (ih _ _).1⟩
    rw [List.foldl_cons, scanLoopFrom]
    split
    · next hstop =>
      rw [hstop, Parser.read_data_stopTag, Parser.foldl_read_of_stopped (.inl rfl)]
      rfl
    split
    · next hesc => rw [hesc, Parser.read_data_escTag, (ih _ _).2]
    · next hstop hesc => rw [Parser.read_data_of_ne c i ⟨hesc, hstop⟩, (ih _ _).1]

theorem scan_eq_scanLoop (B : List Byte) : scan B = scanLoop B := by
  cases B with
  | nil => rfl
  | cons x B =>
    rw [scan, List.foldl_cons, scanLoop, Parser.fresh]
    split
    · next h => rw [h, Parser.read_start_startTag, (verdict_foldl_read_eq_scanLoopFrom B [] _).1]
    · next h =>
      rw [Parser.read_start_of_ne _ _ h, Parser.foldl_read_of_stopped (.inr rfl)]
      rfl

/-! ### Wire bytes one at a time -/

/-- A presented wire byte is read by the kept parser, whatever its class (30_encoding.md R111). -/
theorem exec_decodeByte (x : Byte) (s : State) : exec (decodeByte x) s = readWireByte x s := by
  unfold decodeByte
  split
  · next h => rw [h]; rfl
  split
  · next h => rw [h]; rfl
  split
  · next h => rw [h]; rfl
  · rfl

theorem run_succ_of_step {s t : State} (h : step s = .next t) (k : Nat) :
    Host.Core.run Sys2Proof.core (k + 1) s = Host.Core.run Sys2Proof.core k t := by
  have hcore : Sys2Proof.core.step s = .next t := h
  simp only [Host.Core.run, hcore]

/-- The steps that present the bytes of a list run the kept parser over it. -/
theorem run_present_bytes (B : List Byte) (s : State) :
    Host.Core.run Sys2Proof.core B.length { s with host := B.map fun x => .present (.byte x) } =
      .next { s with host := [], parser := B.foldl Parser.read s.parser } := by
  induction B generalizing s with
  | nil => rfl
  | cons x B ih =>
    refine (run_succ_of_step ((step_cons _ _ _ rfl).trans ?_) B.length).trans (ih { s with parser := s.parser.read x })
    exact (runMove_present _ _ _ rfl).trans (exec_decodeByte x _)

theorem run_feedMoves (B : List Byte) (s : State) :
    Host.Core.run Sys2Proof.core (B.length + 1) { s with host := feedMoves B } =
      .next { s with host := [], parser := B.foldl Parser.read Parser.fresh } :=
  (run_succ_of_step (step_cons { s with host := feedMoves B } .newBuffer _ rfl) B.length).trans
    (run_present_bytes B { s with parser := Parser.fresh })

/-! ### Escaping (43_framing.md R231, R232) -/

theorem isTag_iff (x : Byte) : isTag x = true ↔ x = Config.startTag ∨ x = Config.stopTag ∨ x = Config.escTag := by
  simp [isTag, or_assoc]

/-- The bytes that stand for a byte of the chunk. -/
def escPiece (x : Byte) : List Byte := if isTag x then [Config.escTag, x] else [x]

theorem escPiece_of_tag {x : Byte} (h : isTag x = true) : escPiece x = [Config.escTag, x] := if_pos h

theorem escPiece_of_not_tag {x : Byte} (h : isTag x ≠ true) : escPiece x = [x] := if_neg h

theorem esc_eq_flatten (X : List Byte) : esc X = (X.map escPiece).flatten := List.flatMap_def

theorem esc_cons_of_tag {x : Byte} (h : isTag x = true) (X : List Byte) :
    esc (x :: X) = Config.escTag :: x :: esc X := by
  rw [esc_cons, if_pos h, List.cons_append, List.cons_append, List.nil_append]

theorem esc_cons_of_not_tag {x : Byte} (h : isTag x ≠ true) (X : List Byte) : esc (x :: X) = x :: esc X := by
  rw [esc_cons, if_neg h, List.singleton_append]

/-- The length law of R239 (b). -/
theorem length_esc_eq (X : List Byte) : (esc X).length = X.length + ntag X := by
  induction X with
  | nil => rfl
  | cons x X ih =>
    have hntag : ntag (x :: X) = ntag X + if isTag x then 1 else 0 := by
      rw [ntag, List.countP_cons]
      rfl
    by_cases hx : isTag x = true
    · rw [esc_cons_of_tag hx, hntag, if_pos hx, List.length_cons, List.length_cons, List.length_cons, ih]
      omega
    · rw [esc_cons_of_not_tag hx, hntag, if_neg hx, List.length_cons, List.length_cons, ih]
      omega

/-- In an escaped list a start or stop tag stands directly after an escape tag. -/
theorem getElem?_esc_eq_tag {X : List Byte} {i : Nat} {y : Byte} (hy : y = Config.startTag ∨ y = Config.stopTag)
    (h : (esc X)[i]? = some y) : ∃ j, i = j + 1 ∧ (esc X)[j]? = some Config.escTag := by
  induction X generalizing i with
  | nil => simp at h
  | cons x X ih =>
    by_cases hx : isTag x = true
    · rw [esc_cons_of_tag hx] at h ⊢
      match i, h with
      | 0, h =>
        cases Option.some.inj h
        exact absurd hy (by decide)
      | 1, _ => exact ⟨0, rfl, rfl⟩
      | k + 2, h =>
        obtain ⟨j, rfl, hj⟩ := ih h
        exact ⟨j + 2, rfl, hj⟩
    · rw [esc_cons_of_not_tag hx] at h ⊢
      match i, h with
      | 0, h =>
        cases Option.some.inj h
        exact absurd ((isTag_iff _).mpr (or_assoc.mp (.inl hy))) hx
      | k + 1, h =>
        obtain ⟨j, rfl, hj⟩ := ih h
        exact ⟨j + 1, rfl, hj⟩

/-- Bytes that are neither escape nor stop tag are copied as they stand. -/
theorem Parser.foldl_read_plain {X : List Byte} (h : ∀ x ∈ X, x ≠ Config.escTag ∧ x ≠ Config.stopTag) (c : List Byte)
    (i : Nat) : X.foldl Parser.read ⟨.data, c, i⟩ = ⟨.data, c ++ X, i + X.length⟩ := by
  induction X generalizing c i with
  | nil => simp
  | cons x X ih =>
    obtain ⟨hx, hX⟩ := List.forall_mem_cons.mp h
    rw [List.foldl_cons, Parser.read_data_of_ne c i hx, ih hX, List.append_assoc, List.singleton_append,
      List.length_cons, Nat.add_assoc, Nat.add_comm 1]

/-- Reading an escaped list copies the list. -/
theorem Parser.foldl_read_esc (X c : List Byte) (i : Nat) :
    (esc X).foldl Parser.read ⟨.data, c, i⟩ = ⟨.data, c ++ X, i + (esc X).length⟩ := by
  induction X generalizing c i with
  | nil => simp
  | cons x X ih =>
    by_cases hx : isTag x = true
    · rw [esc_cons_of_tag hx, List.foldl_cons, List.foldl_cons, Parser.read_data_escTag, Parser.read_esc, ih]
      simp only [List.append_assoc, List.singleton_append, List.length_cons, Parser.mk.injEq, true_and]
      omega
    · have hplain : x ≠ Config.escTag ∧ x ≠ Config.stopTag :=
        ⟨fun h => hx ((isTag_iff x).mpr (.inr (.inr h))), fun h => hx ((isTag_iff x).mpr (.inr (.inl h)))⟩
      rw [esc_cons_of_not_tag hx, List.foldl_cons, Parser.read_data_of_ne c i hplain, ih]
      simp only [List.append_assoc, List.singleton_append, List.length_cons, Parser.mk.injEq, true_and]
      omega

/-- The parser in the interior of a frame, after the start tag and an escaped list. -/
theorem foldl_read_startTag_esc (X R : List Byte) :
    ([Config.startTag] ++ esc X ++ R).foldl Parser.read Parser.fresh =
      R.foldl Parser.read ⟨.data, X, (esc X).length + 1⟩ := by
  rw [List.foldl_append, List.foldl_append, List.foldl_cons, List.foldl_nil, Parser.fresh, Parser.read_start_startTag,
    Parser.foldl_read_esc, List.nil_append, Nat.zero_add, Nat.add_comm 1]

theorem scan_startTag_plain_stopTag {X : List Byte} (h : ∀ x ∈ X, x ≠ Config.escTag ∧ x ≠ Config.stopTag) :
    scan ([Config.startTag] ++ X ++ [Config.stopTag]) = .ok X (X.length + 2) := by
  simp only [scan_eq_ok_iff, List.foldl_append, List.foldl_cons, List.foldl_nil, Parser.fresh,
    Parser.read_start_startTag, Parser.foldl_read_plain h, Parser.read_data_stopTag, Parser.mk.injEq, true_and,
    List.nil_append]
  omega

/-! ### The completeness test (43_framing.md R236, R239 (d)) -/

theorem isComplete_append_pair (A : List Byte) (y z : Byte) :
    isComplete (A ++ [y, z]) = true ↔ z = Config.stopTag ∧ y ≠ Config.escTag := by
  simp [isComplete]

theorem isComplete_iff (B : List Byte) :
    isComplete B = true ↔ ∃ A y, B = A ++ [y, Config.stopTag] ∧ y ≠ Config.escTag := by
  constructor
  · intro h
    have h2 : 2 ≤ B.length := by simp [isComplete] at h; omega
    obtain ⟨y, z, hyz⟩ := List.length_eq_two.mp (show (B.drop (B.length - 2)).length = 2 by simp; omega)
    have hB : B = B.take (B.length - 2) ++ [y, z] := by rw [← hyz, List.take_append_drop]
    rw [hB, isComplete_append_pair] at h
    obtain ⟨rfl, hy⟩ := h
    exact ⟨_, y, hB, hy⟩
  · rintro ⟨A, y, rfl, hy⟩
    exact (isComplete_append_pair A y _).mpr ⟨rfl, hy⟩

/-- The parser has read a start tag as the first byte. -/
def Parser.Opened (p : Parser) : Prop := p.phase = .data ∨ p.phase = .esc ∨ p.phase = .done

theorem Parser.Opened.read {p : Parser} (h : p.Opened) (x : Byte) : (p.read x).Opened := by
  obtain ⟨phase, c, i⟩ := p
  obtain h | h | h := h <;> cases h
  · simp only [Parser.read]
    (repeat' split) <;> simp [Parser.Opened]
  · exact .inl rfl
  · exact .inr (.inr rfl)

theorem Parser.Opened.foldl_read {p : Parser} (h : p.Opened) (B : List Byte) : (B.foldl Parser.read p).Opened := by
  induction B generalizing p with
  | nil => exact h
  | cons x B ih => exact ih (h.read x)

theorem opened_of_head_eq_startTag {B : List Byte} (h : B.head? = some Config.startTag) :
    (B.foldl Parser.read Parser.fresh).Opened := by
  obtain ⟨B', rfl⟩ := List.head?_eq_some_iff.mp h
  exact Parser.Opened.foldl_read (.inl rfl) B'

/-- Only an escape tag leads to S_ESC. -/
theorem Parser.phase_read_ne_esc (p : Parser) {y : Byte} (h : y ≠ Config.escTag) : (p.read y).phase ≠ .esc := by
  obtain ⟨phase, c, i⟩ := p
  cases phase <;> simp only [Parser.read, if_neg h] <;> (repeat' split) <;> simp

/-- Outside S_ESC a stop tag ends an opened frame. -/
theorem Parser.phase_read_stopTag {p : Parser} (h : p.Opened) (hne : p.phase ≠ .esc) :
    (p.read Config.stopTag).phase = .done := by
  obtain ⟨phase, c, i⟩ := p
  obtain h | h | h := h <;> cases h
  · rfl
  · exact absurd rfl hne
  · rfl

/-- A buffer that starts with the start tag and passes the completeness test has a stop tag (R239 (d)). -/
theorem exists_scan_eq_ok_of_isComplete {B : List Byte} (h : isComplete B = true)
    (hhead : B.head? = some Config.startTag) : ∃ copy consumed, scan B = .ok copy consumed := by
  obtain ⟨A, y, rfl, hy⟩ := (isComplete_iff B).mp h
  have hlast : (A ++ [y, Config.stopTag]).foldl Parser.read Parser.fresh =
      ((A.foldl Parser.read Parser.fresh).read y).read Config.stopTag := by simp
  have hopen : ((A.foldl Parser.read Parser.fresh).read y).Opened := by
    have hA : (A ++ [y]).head? = some Config.startTag := by
      rwa [List.append_cons, List.head?_append_of_ne_nil _ (by simp)] at hhead
    simpa using opened_of_head_eq_startTag hA
  have hdone := Parser.phase_read_stopTag hopen (Parser.phase_read_ne_esc _ hy)
  rw [← hlast] at hdone
  exact ⟨_, _, scan_eq_ok_iff.mpr (congrArg (Parser.mk · _ _) hdone)⟩

end Sys2Proof.Machine

section
open Sys2Proof Sys2Proof.Machine

/-- Settles O48: each byte class is one row of the table. -/
theorem wireBytesFollowTheParserTable : Obligations.WireBytesFollowTheParserTable := by
  intro s x c i
  have hread : ∀ {p q : Parser} {y : Byte}, s.parser = p → p.read y = q →
      readWireByte y s = .next { s with parser := q } := by
    rintro p q y rfl rfl
    rfl
  have hdata : (Instr.wireData x).wellFormed = true →
      x ≠ Config.startTag ∧ x ≠ Config.stopTag ∧ x ≠ Config.escTag := by
    intro h
    simpa [Instr.wellFormed, and_assoc] using h
  refine ⟨fun h => ?_, fun h => ?_, fun h => ?_, fun h => ?_, rfl, rfl, rfl, rfl, rfl⟩
  · exact ⟨hread h rfl, hread h rfl, hread h rfl, fun hx => hread h (Parser.read_start_of_ne c i (hdata hx).1)⟩
  · refine ⟨hread h rfl, hread h rfl, hread h rfl, fun hx => ?_⟩
    obtain ⟨-, hstop, hesc⟩ := hdata hx
    exact hread h (Parser.read_data_of_ne c i ⟨hesc, hstop⟩)
  · exact ⟨hread h rfl, hread h rfl, hread h rfl, hread h rfl⟩
  · have hstay : ∀ y, readWireByte y s = .next s := fun y => hread rfl (Parser.read_of_stopped h y)
    exact ⟨hstay _, hstay _, hstay _, hstay _⟩

/-- Settles O49: the parser kept between wire bytes ends as the one that reads the whole buffer. -/
theorem byteAtATimeParserEqualsTheLoop : Obligations.ByteAtATimeParserEqualsTheLoop :=
  ⟨scan_eq_scanLoop, fun s B => ⟨_, run_feedMoves B s, scan_eq_scanLoop B⟩⟩

/-- Settles O50: the pieces are those of `escPiece`, and the parser undoes each. -/
theorem escapingThenParsingReturnsTheBytes : Obligations.EscapingThenParsingReturnsTheBytes := by
  refine ⟨fun X => ?_, fun X => ⟨_, esc_eq_flatten X, ?_⟩, length_esc_eq, fun X i h => ?_,
    fun X => scan_startTag_plain_stopTag, fun B => exists_scan_eq_ok_of_isComplete, by decide, by decide⟩
  · exact scan_eq_ok_iff.mpr (foldl_read_startTag_esc X [Config.stopTag])
  · refine List.forall₂_map_right_iff.mpr (List.forall₂_same.mpr fun x _ => ⟨fun h => ?_, fun hstart hstop hesc => ?_⟩)
    · exact escPiece_of_tag ((isTag_iff x).mpr h)
    · exact escPiece_of_not_tag fun h => ((isTag_iff x).mp h).elim hstart (Or.elim · hstop hesc)
  · exact h.elim (getElem?_esc_eq_tag (.inl rfl)) (getElem?_esc_eq_tag (.inr rfl))

end

namespace Sys2Proof.Machine

/-! ## Frames and their decoding (43_framing.md R233, R234, R240, R245, R246; 70_reset_and_hazards.md R351)

The trailer is read by the parser as it stands. A trailer-safe one is copied whole, so the scan of the frame gives the
chunk and its trailer, which the codec accepts. Of any other the parser drops a byte or stops in it, so the copy is
shorter, and a payload would have another length than the chunk. -/

/-! ### The codec (43_framing.md R240) -/

theorem bits_append (A B : List Byte) : bits (A ++ B) = bits A ++ bits B := List.flatMap_append

/-- The check accepts a chunk followed by its CRC trailer. -/
theorem crcOk_bits_append_trailer (P : List Byte) : crcOk (bits (P ++ trailer .crc P)) = true := by
  rw [trailer, bits_append, bits_bytes, length_crcRem, crcOk]
  exact (crcOkBy_append_iff (by decide) (bits P) (by simp)).mpr (List.append_nil _).symm

/-- What the codec reports of a correction that found no error: nothing under CRC, syndrome 0 under HAM. -/
def cleanReport : Scheme → Option (Byte × HamClass)
  | .crc => none
  | .ham => some (0, .noError)

/-- The codec accepts a chunk followed by its trailer. -/
theorem checkCopy_append_trailer (sc : Scheme) (P : List Byte) :
    checkCopy sc (P ++ trailer sc P) = .payload P (cleanReport sc) := by
  cases sc with
  | crc =>
    have hlen : (P ++ trailer .crc P).length - 2 = P.length := by simp [Config.trailerLen]
    rw [checkCopy, if_pos (crcOk_bits_append_trailer P), hlen, List.take_left]
    rfl
  | ham =>
    have hclean : hamCorrect (bits P) (hamParity (bits P)) = (bits P, 0, .noError) :=
      hamCorrect_of_zero BitVec.xor_self.symm rfl
    simp [checkCopy, trailer, hclean, bytes_bits, cleanReport]

/-- A payload is shorter than its copy by the trailer. -/
theorem length_of_checkCopy {sc : Scheme} {copy P : List Byte} {ham : Option (Byte × HamClass)}
    (h : checkCopy sc copy = .payload P ham) : P.length = copy.length - Config.trailerLen sc := by
  rcases checkCopy_payload h with ⟨rfl, -, rfl, -⟩ | ⟨rfl, rfl, -⟩
  · simp [Config.trailerLen]
  · simp [Config.trailerLen]
    omega

/-- All a successful decoding says: the scan succeeded, and the codec accepted a copy no shorter than the trailer. -/
theorem decodeFrame_eq_ok_iff {sc : Scheme} {B P : List Byte} {consumed : Nat} {ham : Option (Byte × HamClass)} :
    decodeFrame sc B = .ok P consumed ham ↔
      ∃ copy, scan B = .ok copy consumed ∧ Config.trailerLen sc ≤ copy.length ∧
        checkCopy sc copy = .payload P ham := by
  constructor
  · intro h
    unfold decodeFrame at h
    split at h
    · cases h
    next copy i hscan =>
    split at h
    · cases h
    next hlong =>
    split at h
    · cases h
    next hc =>
    cases h
    exact ⟨copy, hscan, Nat.not_lt.mp hlong, hc⟩
  · rintro ⟨copy, hscan, hmin, hc⟩
    simp only [decodeFrame, hscan, if_neg (Nat.not_lt.mpr hmin), hc]

/-! ### The length and the scan of a frame -/

/-- The length of a frame by the number of tag-valued bytes (43_framing.md R234, 30_encoding.md R110). -/
theorem length_frame_eq (sc : Scheme) (P : List Byte) :
    (frame sc P).length = P.length + ntag P + Config.trailerLen sc + 2 := by
  rw [length_frame, length_esc_eq]

/-- The parser at the end of a frame: in the interior it has copied the chunk; the trailer and the stop tag follow. -/
theorem foldl_read_frame (sc : Scheme) (P : List Byte) :
    (frame sc P).foldl Parser.read Parser.fresh =
      ((trailer sc P).foldl Parser.read ⟨.data, P, (esc P).length + 1⟩).read Config.stopTag := by
  rw [frame, List.append_assoc, foldl_read_startTag_esc, List.foldl_append, List.foldl_cons, List.foldl_nil]

theorem scan_frame_of_trailerSafe {sc : Scheme} {P : List Byte} (h : TrailerSafe sc P) :
    scan (frame sc P) = .ok (P ++ trailer sc P) (frame sc P).length := by
  rw [scan_eq_ok_iff, foldl_read_frame, Parser.foldl_read_plain h, Parser.read_data_stopTag, length_frame,
    length_trailer, Parser.mk.injEq]
  exact ⟨rfl, rfl, by omega⟩

/-- A parser that copies every byte of a list met neither an escape tag nor a stop tag in it. -/
theorem plain_of_length_copy_foldl_read {T c : List Byte} {i : Nat}
    (h : c.length + T.length ≤ (T.foldl Parser.read ⟨.data, c, i⟩).copy.length) :
    ∀ x ∈ T, x ≠ Config.escTag ∧ x ≠ Config.stopTag := by
  induction T generalizing c i with
  | nil => nofun
  | cons x T ih =>
    rw [List.foldl_cons, List.length_cons] at h
    have hlost : (Parser.read ⟨.data, c, i⟩ x).copy ≠ c := fun hc => by
      have hle := Parser.length_copy_foldl_read T (Parser.read ⟨.data, c, i⟩ x)
      rw [hc] at hle
      omega
    have hx : x ≠ Config.escTag ∧ x ≠ Config.stopTag := by
      constructor
      · rintro rfl
        exact hlost (congrArg Parser.copy (Parser.read_data_escTag c i))
      · rintro rfl
        exact hlost (congrArg Parser.copy (Parser.read_data_stopTag c i))
    rw [Parser.read_data_of_ne c i hx] at h
    exact List.forall_mem_cons.mpr ⟨hx, ih (c := c ++ [x]) (i := i + 1) (by simp; omega)⟩

/-- The byte at which a parser stops with success is not copied. -/
theorem Parser.copy_of_phase_read_done {p : Parser} {x : Byte} (h : (p.read x).phase = .done) :
    (p.read x).copy = p.copy := by
  obtain ⟨phase, c, i⟩ := p
  cases phase <;> simp only [Parser.read] at h ⊢ <;> (repeat' split at h) <;> simp_all

/-- A frame whose scan gives a copy of chunk and trailer length is that of a trailer-safe chunk. -/
theorem trailerSafe_of_scan_frame {sc : Scheme} {P copy : List Byte} {consumed : Nat}
    (h : scan (frame sc P) = .ok copy consumed) (hlen : P.length + Config.trailerLen sc ≤ copy.length) :
    TrailerSafe sc P := by
  rw [scan_eq_ok_iff, foldl_read_frame] at h
  refine plain_of_length_copy_foldl_read (c := P) (i := (esc P).length + 1) ?_
  have hcopy := Parser.copy_of_phase_read_done (congrArg Parser.phase h)
  rw [h] at hcopy
  rwa [length_trailer, ← hcopy]

theorem decodeFrame_frame_of_trailerSafe {sc : Scheme} {P : List Byte} (h : TrailerSafe sc P) :
    decodeFrame sc (frame sc P) = .ok P (frame sc P).length (cleanReport sc) :=
  decodeFrame_eq_ok_iff.mpr ⟨_, scan_frame_of_trailerSafe h, by simp, checkCopy_append_trailer sc P⟩

/-! ### Completeness of frames (43_framing.md R246) -/

theorem isComplete_frame_of_trailerSafe {sc : Scheme} {P : List Byte} (h : TrailerSafe sc P) :
    isComplete (frame sc P) = true := by
  have hne : trailer sc P ≠ [] := List.ne_nil_of_length_pos (by cases sc <;> simp [Config.trailerLen])
  refine (isComplete_iff _).mpr ⟨[Config.startTag] ++ esc P ++ (trailer sc P).dropLast, (trailer sc P).getLast hne, ?_,
    (h _ (List.getLast_mem hne)).1⟩
  conv_lhs => rw [frame, ← List.dropLast_append_getLast hne]
  simp

/-- A scan that succeeds on a buffer gives the same on every longer one, and has consumed no more than the buffer. -/
theorem scan_append_of_ok {A copy : List Byte} {consumed : Nat} (h : scan A = .ok copy consumed) (B : List Byte) :
    scan (A ++ B) = .ok copy consumed ∧ consumed ≤ A.length := by
  rw [scan_eq_ok_iff] at h ⊢
  have hle := Parser.index_foldl_read_le A Parser.fresh
  rw [h] at hle
  rw [List.foldl_append, h]
  exact ⟨Parser.foldl_read_of_stopped (.inl rfl) B, by simpa [Parser.fresh] using hle⟩

/-- A complete beginning would end the scan of the frame, which consumes the whole frame. -/
theorem isComplete_take_frame_of_trailerSafe {sc : Scheme} {P : List Byte} (h : TrailerSafe sc P) {j : Nat}
    (hj : j < (frame sc P).length) : isComplete ((frame sc P).take j) = false := by
  refine Bool.eq_false_iff.mpr fun hcomplete => ?_
  have hj0 : j ≠ 0 := by
    rintro rfl
    simp [isComplete] at hcomplete
  obtain ⟨copy, consumed, hscan⟩ := exists_scan_eq_ok_of_isComplete hcomplete
    (by rw [List.head?_take, if_neg hj0]; rfl)
  obtain ⟨hwhole, hle⟩ := scan_append_of_ok hscan ((frame sc P).drop j)
  rw [List.take_append_drop, scan_frame_of_trailerSafe h] at hwhole
  cases hwhole
  rw [List.length_take] at hle
  omega

end Sys2Proof.Machine

section
open Sys2Proof Sys2Proof.Machine

/-- Settles O51: a payload of the chunk's length needs a copy of the chunk's and the trailer's length. -/
theorem frameRoundTripIffTrailerSafe : Obligations.FrameRoundTripIffTrailerSafe := by
  intro sc P _ _
  refine ⟨fun h => ?_, decodeFrame_frame_of_trailerSafe⟩
  obtain ⟨copy, hscan, hmin, hcheck⟩ := decodeFrame_eq_ok_iff.mp h
  have hlen := length_of_checkCopy hcheck
  exact trailerSafe_of_scan_frame hscan (by omega)

/-- Settles O52: no shorter beginning of the frame ends its scan. -/
theorem completenessOfTrailerSafeFrames : Obligations.CompletenessOfTrailerSafeFrames :=
  fun _ _ _ _ h => ⟨isComplete_frame_of_trailerSafe h, fun _ => isComplete_take_frame_of_trailerSafe h⟩

end

namespace Sys2Proof.Machine

/-! ## The framing commands (43_framing.md R241 to R244, R247)

Each command's outcomes are said once, one equation per outcome, in the order of the rule's checks. -/

/-! ### Chunks (43_framing.md R235) -/

theorem flatten_map_take_drop (M : List Byte) (k m : Nat) :
    ((List.range m).map fun c => (M.drop (k * c)).take k).flatten = M.take (k * m) := by
  induction m with
  | zero => simp
  | succ m ih =>
    rw [List.range_succ, List.map_append, List.flatten_append, ih, List.map_singleton, List.flatten_singleton,
      Nat.mul_succ, List.take_add]

/-- The chunks of a message joined are the message. -/
theorem flatten_chunks (M : List Byte) : (chunks M).flatten = M := by
  have hlen : M.length ≤ 8 * ((M.length + 7) / 8) := by omega
  exact (flatten_map_take_drop M 8 _).trans (List.take_of_length_le hlen)

/-- All chunks but the last are full. -/
theorem length_of_mem_dropLast_chunks {M P : List Byte} (h : P ∈ (chunks M).dropLast) : P.length = 8 := by
  obtain ⟨c, hc, rfl⟩ := List.mem_iff_getElem.mp h
  have hfull : c < (M.length + 7) / 8 - 1 := by simpa [chunkCount] using hc
  simp only [chunks, List.getElem_dropLast, List.getElem_map, List.getElem_range, List.length_take, List.length_drop]
  exact Nat.min_eq_left (show 8 ≤ M.length - 8 * c by omega)

/-! ### The completeness test of a range -/

theorem isComplete_readBytes (m : Memory) (a n : Nat) : isComplete (m.readBytes a n) = true ↔
    2 ≤ n ∧ m.read (a + n - 1) = Config.stopTag ∧ m.read (a + n - 2) ≠ Config.escTag := by
  by_cases hn : 2 ≤ n
  · rw [isComplete, Memory.length_readBytes, Memory.getElem?_readBytes _ _ _ _ (by omega),
      Memory.getElem?_readBytes _ _ _ _ (by omega), ← Nat.add_sub_assoc (by omega), ← Nat.add_sub_assoc hn]
    simp [hn]
  · simp [isComplete, hn]

/-! ### The outcomes of each command -/

section
variable {src n dst : Addr} {s : State}

theorem exec_frmEncode_of_chunkLength (h : n.toNat = 0 ∨ 8 < n.toNat) :
    exec (.frmEncode src n dst) s = refuse .chunkLength s :=
  if_pos h

theorem exec_frmEncode_of_not_inMem (h1 : 1 ≤ n.toNat) (h8 : n.toNat ≤ 8)
    (hm : 65536 < src.toNat + n.toNat ∨
      65536 < dst.toNat + (frame s.scheme (s.mem.readBytes src.toNat n.toNat)).length) :
    exec (.frmEncode src n dst) s = refuse .addrRange s := by
  have hn : ¬ (n.toNat = 0 ∨ Config.maxChunk < n.toNat) := fun (h : _ ∨ 8 < _) => by omega
  rw [exec, execFrmEncode, if_neg hn]
  split
  · rfl
  · next hsrc =>
    have hdst := hm.resolve_left fun h => hsrc (by simp [h])
    exact if_pos (by simp [hdst])

theorem exec_frmEncode_of_inMem (h1 : 1 ≤ n.toNat) (h8 : n.toNat ≤ 8) (hsrc : src.toNat + n.toNat ≤ 65536)
    (hdst : dst.toNat + (frame s.scheme (s.mem.readBytes src.toNat n.toNat)).length ≤ 65536) :
    exec (.frmEncode src n dst) s = .next { s with
      mem := s.mem.writeBytes dst.toNat (frame s.scheme (s.mem.readBytes src.toNat n.toNat))
      rlen := count16 (frame s.scheme (s.mem.readBytes src.toNat n.toNat)).length
      status := 0 } := by
  have hn : ¬ (n.toNat = 0 ∨ Config.maxChunk < n.toNat) := fun (h : _ ∨ 8 < _) => by omega
  rw [exec, execFrmEncode, if_neg hn, if_neg (by simp [hsrc]), if_neg (by simp [hdst]), succeed_eq]

theorem exec_frmComplete_of_inMem (hm : src.toNat + n.toNat ≤ 65536) : exec (.frmComplete src n) s = .next { s with
    res := (if isComplete (s.mem.readBytes src.toNat n.toNat) then 1 else 0), status := 0 } :=
  if_neg (by simp [hm])

theorem exec_frmComplete_of_not_inMem (hm : 65536 < src.toNat + n.toNat) :
    exec (.frmComplete src n) s = refuse .addrRange s :=
  if_pos (by simp [hm])

theorem exec_frmDecode_of_not_inMem (hm : 65536 < src.toNat + n.toNat) :
    exec (.frmDecode src n dst) s = refuse .addrRange s :=
  if_pos (by simp [hm])

theorem exec_frmDecode_of_scan_fail {k : ErrKind} (hm : src.toNat + n.toNat ≤ 65536)
    (hscan : scan (s.mem.readBytes src.toNat n.toNat) = .fail k) :
    exec (.frmDecode src n dst) s = fail k { s with res := 0, rlen := 0 } := by
  rw [exec, execFrmDecode, if_neg (by simp [hm]), hscan]

theorem exec_frmDecode_of_scan_ok {copy : List Byte} {consumed : Nat} (hm : src.toNat + n.toNat ≤ 65536)
    (hscan : scan (s.mem.readBytes src.toNat n.toNat) = .ok copy consumed) :
    exec (.frmDecode src n dst) s = decodeCopy dst copy consumed s := by
  rw [exec, execFrmDecode, if_neg (by simp [hm]), hscan]

theorem exec_frmSend_of_inMem (hm : src.toNat + n.toNat ≤ 65536) : exec (.frmSend src n) s = .next { s with
    txLog := s.txLog ++ (chunks (s.mem.readBytes src.toNat n.toNat)).map (frame s.scheme)
    rlen := count16 (chunkCount n.toNat)
    status := 0 } :=
  if_neg (by simp [hm])

theorem exec_frmSend_of_not_inMem (hm : 65536 < src.toNat + n.toNat) :
    exec (.frmSend src n) s = refuse .addrRange s :=
  if_pos (by simp [hm])

end

/-! ### Steps 4 to 8 of FRM_DECODE (43_framing.md R243) -/

section
variable {dst : Addr} {copy : List Byte} {consumed : Nat} {s : State}

theorem decodeCopy_of_short (h : copy.length < Config.trailerLen s.scheme) :
    decodeCopy dst copy consumed s = fail .tooShort { s with res := count16 consumed, rlen := 0 } :=
  if_pos h

theorem decodeCopy_of_ham_long (hs : s.scheme = .ham) (h : 32 ≤ copy.length) :
    decodeCopy dst copy consumed s = refuse .hamRange s := by
  have hlong : s.scheme = .ham ∧ Config.hamMaxData < 8 * (copy.length - 1) := ⟨hs, show 247 < _ by omega⟩
  have hshort : ¬ copy.length < Config.trailerLen s.scheme := by
    rw [hs]
    exact fun (h1 : _ < 1) => by omega
  rw [decodeCopy, if_neg hshort, if_pos hlong]

/-- The copy is long enough for a trailer and, under HAM, not too long for the code: step 6 is reached. -/
def ReachesCodec (sc : Scheme) (copy : List Byte) : Prop :=
  Config.trailerLen sc ≤ copy.length ∧ (sc = .ham → copy.length ≤ 31)

theorem ReachesCodec.not_short {sc : Scheme} (h : ReachesCodec sc copy) : ¬ copy.length < Config.trailerLen sc :=
  Nat.not_lt.mpr h.1

theorem ReachesCodec.not_long {sc : Scheme} (h : ReachesCodec sc copy) :
    ¬ (sc = .ham ∧ Config.hamMaxData < 8 * (copy.length - 1)) := by
  rintro ⟨hs, (hlong : 247 < _)⟩
  have := h.2 hs
  omega

theorem decodeCopy_of_corrupt (h : ReachesCodec s.scheme copy) (hc : checkCopy s.scheme copy = .corrupt) :
    decodeCopy dst copy consumed s = fail .crcMismatch { s with res := count16 consumed, rlen := 0 } := by
  rw [decodeCopy, if_neg h.not_short, if_neg h.not_long, hc]

section
variable {P : List Byte} {ham : Option (Byte × HamClass)} (h : ReachesCodec s.scheme copy)
  (hc : checkCopy s.scheme copy = .payload P ham)
include h hc

theorem decodeCopy_of_payload (hm : dst.toNat + P.length ≤ 65536) :
    decodeCopy dst copy consumed s = deliverPayload dst P consumed ham s := by
  rw [decodeCopy, if_neg h.not_short, if_neg h.not_long, hc]
  exact if_neg (by simp [hm])

theorem decodeCopy_of_payload_not_inMem (hm : 65536 < dst.toNat + P.length) :
    decodeCopy dst copy consumed s = refuse .addrRange s := by
  rw [decodeCopy, if_neg h.not_short, if_neg h.not_long, hc]
  exact if_pos (by simp [hm])

end

end

/-- What the delivery of a payload leaves behind when the codec found no error. -/
theorem deliverPayload_cleanReport (sc : Scheme) (dst : Addr) (P : List Byte) (consumed : Nat) (s : State) :
    ∃ u, deliverPayload dst P consumed (cleanReport sc) s = .next u ∧ u.status = 0 ∧ u.res = count16 consumed ∧
      u.rlen = count16 P.length ∧ u.mem = s.mem.writeBytes dst.toNat P := by
  cases sc with
  | crc => exact ⟨_, deliverPayload_none .., rfl, rfl, rfl, rfl⟩
  | ham => exact ⟨_, deliverPayload_some .., rfl, rfl, rfl, rfl⟩

theorem count16_toNat (x : Word16) : count16 x.toNat = x := by simp [count16]

/-- FRM_DECODE on a range that holds the frame of a trailer-safe chunk delivers the chunk, and consumes the range. -/
theorem exec_frmDecode_of_frame {src n dst : Addr} {s : State} {P : List Byte} (hm : src.toNat + n.toNat ≤ 65536)
    (hB : s.mem.readBytes src.toNat n.toNat = frame s.scheme P) (hsafe : TrailerSafe s.scheme P) (h8 : P.length ≤ 8)
    (hdst : dst.toNat + P.length ≤ 65536) :
    ∃ u, exec (.frmDecode src n dst) s = .next u ∧ u.status = 0 ∧ u.res = n ∧ u.rlen = count16 P.length ∧
      u.mem = s.mem.writeBytes dst.toNat P := by
  have hn : (frame s.scheme P).length = n.toNat := by rw [← hB, Memory.length_readBytes]
  have hscan : scan (s.mem.readBytes src.toNat n.toNat) = .ok (P ++ trailer s.scheme P) n.toNat := by
    rw [hB, scan_frame_of_trailerSafe hsafe, hn]
  have hreach : ReachesCodec s.scheme (P ++ trailer s.scheme P) :=
    ⟨by simp, fun hham => by simp [hham, Config.trailerLen]; omega⟩
  have hdeliver := deliverPayload_cleanReport s.scheme dst P n.toNat s
  rw [count16_toNat] at hdeliver
  rwa [exec_frmDecode_of_scan_ok hm hscan, decodeCopy_of_payload hreach (checkCopy_append_trailer _ _) hdst]

end Sys2Proof.Machine

section
open Sys2Proof Sys2Proof.Machine

/-- Settles O43: the frame is the list stored at dst, and at most each byte of the chunk is escaped. -/
theorem frmEncodeWritesTheFrame : Obligations.FrmEncodeWritesTheFrame := by
  rintro src n dst s _ rfl
  refine ⟨(encode_eq_wordOf (i := .frmEncode src n dst) rfl :), fun h1 h8 hsrc hdst => ?_,
    exec_frmEncode_of_chunkLength, exec_frmEncode_of_not_inMem⟩
  refine ⟨_, exec_frmEncode_of_inMem h1 h8 hsrc hdst, Memory.read_writeBytes_inside _ _ _,
    Memory.read_writeBytes_outside _ _ _, ?_, ?_⟩
  · rw [length_frame_eq, Memory.length_readBytes]
    rfl
  · have hesc := length_esc (s.mem.readBytes src.toNat n.toNat)
    rw [Memory.length_readBytes] at hesc
    cases s.scheme <;> simp only [length_frame, Config.trailerLen] <;> omega

/-- Settles O44: only the last two bytes of the range decide the test. -/
theorem frmCompleteLooksAtTwoBytes : Obligations.FrmCompleteLooksAtTwoBytes := by
  intro src n s
  refine ⟨(encode_eq_wordOf (i := .frmComplete src n) rfl :), fun hm => ?_, exec_frmComplete_of_not_inMem⟩
  simp only [exec_frmComplete_of_inMem hm, isComplete_readBytes]

/-- Settles O45: one case per check before the payload, the scan being the loop of the rule. -/
theorem frmDecodeErrorsInOrder : Obligations.FrmDecodeErrorsInOrder := by
  rintro src n dst s _ rfl
  refine ⟨(encode_eq_wordOf (i := .frmDecode src n dst) rfl :), exec_frmDecode_of_not_inMem, fun hm => ?_⟩
  rw [← scan_eq_scanLoop]
  refine ⟨fun k => exec_frmDecode_of_scan_fail hm, fun copy consumed hscan => ?_⟩
  rw [exec_frmDecode_of_scan_ok hm hscan]
  refine ⟨decodeCopy_of_short, decodeCopy_of_ham_long, fun hcrc h2 hbad => ?_⟩
  refine decodeCopy_of_corrupt ⟨by rwa [hcrc], by simp [hcrc]⟩ ?_
  rw [hcrc, checkCopy, if_neg (by simp [hbad])]

/-- Settles O46: the codec's payload, under either scheme, is delivered or does not fit. -/
theorem frmDecodeDeliversThePayload : Obligations.FrmDecodeDeliversThePayload := by
  intro src n dst s copy consumed hm hscan
  rw [← scan_eq_scanLoop] at hscan
  rw [exec_frmDecode_of_scan_ok hm hscan]
  refine ⟨fun hcrc h2 hok => ?_, fun hham data par hcopy h30 => ?_⟩
  · have hreach : ReachesCodec s.scheme copy := ⟨by rwa [hcrc], by simp [hcrc]⟩
    have hcheck : checkCopy s.scheme copy = .payload (copy.take (copy.length - 2)) none := by
      rw [hcrc, checkCopy, if_pos hok]
    have hlen : (copy.take (copy.length - 2)).length = copy.length - 2 := by simp
    refine ⟨fun hfit => ?_, fun hover => decodeCopy_of_payload_not_inMem hreach hcheck (by rwa [hlen])⟩
    rw [decodeCopy_of_payload hreach hcheck (by rwa [hlen]), deliverPayload_none, hlen]
    rfl
  · have hreach : ReachesCodec s.scheme copy := by
      rw [hham, hcopy]
      exact ⟨by simp [Config.trailerLen], fun _ => by simp; omega⟩
    have hcheck : checkCopy s.scheme copy =
        .payload (bytes (hamCorrect (bits data) par).1) (some (hamCorrect (bits data) par).2) := by
      simp [hham, hcopy, checkCopy]
    have hlen : (bytes (hamCorrect (bits data) par).1).length = data.length := by
      simp
      omega
    rw [← hlen]
    refine ⟨fun hfit => ?_, decodeCopy_of_payload_not_inMem hreach hcheck⟩
    rw [decodeCopy_of_payload hreach hcheck hfit, deliverPayload_some]
    rfl

/-- Settles O47: the chunks are the pieces of the message. -/
theorem frmSendAppendsOneFramePerChunk : Obligations.FrmSendAppendsOneFramePerChunk := by
  intro src n s
  refine ⟨(encode_eq_wordOf (i := .frmSend src n) rfl :), fun hm => ?_, exec_frmSend_of_not_inMem⟩
  refine ⟨_, exec_frmSend_of_inMem hm, flatten_chunks _, ?_, length_of_mem_chunks _,
    fun _ => length_of_mem_dropLast_chunks⟩
  rw [length_chunks, Memory.length_readBytes]
  rfl

/-- Settles O53: the range FRM_ENCODE wrote reads as the frame, and FRM_DECODE delivers the frame's chunk. -/
theorem encodeThenDecodeRestoresTheChunk : Obligations.EncodeThenDecodeRestoresTheChunk := by
  intro src n dst out s h1 h8 hsrc hdst hout hsafe
  refine ⟨_, exec_frmEncode_of_inMem h1 h8 hsrc hdst, ?_⟩
  have hlen : (s.mem.readBytes src.toNat n.toNat).length = n.toNat := Memory.length_readBytes _ _ _
  generalize s.mem.readBytes src.toNat n.toNat = P at hdst hsafe hlen ⊢
  rw [← hlen] at h1 h8 hout ⊢
  have hrlen : (count16 (frame s.scheme P).length).toNat = (frame s.scheme P).length := by
    have hF := length_frame_bounds s.scheme P h1 h8
    exact Nat.mod_eq_of_lt (by omega)
  obtain ⟨u, hu, hstatus, hres, hulen, hmem⟩ := exec_frmDecode_of_frame
    (s := { s with
      mem := s.mem.writeBytes dst.toNat (frame s.scheme P), rlen := count16 (frame s.scheme P).length, status := 0 })
    (src := dst) (n := count16 (frame s.scheme P).length) (dst := out) (P := P)
    (by rwa [hrlen]) (by rw [hrlen]; exact Memory.readBytes_writeBytes _ _ _) hsafe h8 hout
  refine ⟨u, hu, hstatus, hres, ?_, ?_⟩
  · rw [hulen, hlen, count16_toNat]
  · rw [hmem, Memory.readBytes_writeBytes]

/-- Settles O54: each entry is the frame of a trailer-safe chunk, and the chunks joined are the message. -/
theorem sentMessageDecodesBack : Obligations.SentMessageDecodesBack := by
  intro src n s hm hsafe
  refine ⟨_, _, _, exec_frmSend_of_inMem hm, rfl, ?_, flatten_chunks _⟩
  exact List.forall₂_map_left_iff.mpr
    (List.forall₂_same.mpr fun P hP => ⟨_, decodeFrame_frame_of_trailerSafe (hsafe P hP)⟩)

end

namespace Sys2Proof
open Machine

/-! ## The system commands (44_system.md R281, R282)

A command without operands has one word, so every other word of its opcode is illegal. What a step can do to DIAG is
read off the ways a command ends (60_exceptions.md R290, R296, R297): each only ORs bits in, but for DIAG_CLR. -/

/-- With no field used, the decoder asks that every field but the opcode is 0 (30_encoding.md R103). -/
theorem eq_opcodeFields_of_no_operands {f : Fields} (hsome : (decodeFields f).isSome)
    (hused : usedFields f.op.toNat = some ⟨false, false, false, false, false⟩) : f = opcodeFields f.op := by
  obtain ⟨u, hu, ⟨hz, hrd, hrs, ha, hb, hc, -⟩, -⟩ := (isSome_decodeFields_iff f).mp hsome
  obtain rfl : (⟨false, false, false, false, false⟩ : UsedFields) = u := Option.some.inj (hused.symm.trans hu)
  obtain ⟨op, rd, rs, z, a, b, c⟩ := f
  simp_all [opcodeFields]

/-- A command without operands has one word; every other word of its opcode is illegal. -/
theorem decodeCmd_eq_none_of_no_operands {w w₀ : CmdWord} {i : Instr} (h₀ : decodeCmd w₀ = some i)
    (hused : usedFields (fieldNat w₀ 56 8) = some ⟨false, false, false, false, false⟩)
    (hop : fieldNat w 56 8 = fieldNat w₀ 56 8) (hne : w ≠ w₀) : decodeCmd w = none := by
  by_contra hw
  have hfields := eq_opcodeFields_of_no_operands (Option.isSome_iff_ne_none.mpr hw) (by rwa [← fieldNat_op, hop])
  have hfields₀ := eq_opcodeFields_of_no_operands (Option.isSome_of_mem h₀) (by rwa [← fieldNat_op])
  have hop' : (fieldsOf w).op = (fieldsOf w₀).op := BitVec.eq_of_toNat_eq (by rwa [← fieldNat_op, ← fieldNat_op])
  exact hne (fieldsOf_injective (by rw [hfields, hfields₀, hop']))

end Sys2Proof

namespace Sys2Proof.Machine

/-- OR-ing a DIAG bit in clears none. -/
theorem orDiag_keeps_bit {d : Byte} (j : Nat) {k : Nat} (hk : d.getLsbD k = true) :
    (orDiag d j).getLsbD k = true := by
  rw [orDiag, BitVec.getLsbD_or, hk, Bool.true_or]

/-! ### The ways a command ends -/

/-- The ways the command `i` ends from `s`: success without and with a correction, a failed check with its recorded
results, a refusal (60_exceptions.md R290, R296, R297). Before its end only DIAG_CLR touches DIAG. -/
inductive Ends (i : Instr) (s : State) : Result → Prop
  | success (u : State) (hdiag : u.diag = s.diag ∨ (i = .diagClr ∧ u.diag = 0)) : Ends i s (succeed u)
  | correction (syn : Byte) (cls : HamClass) (u : State) (hsynd : writesSynd i = true) (hdiag : u.diag = s.diag) :
      Ends i s (succeedHam syn cls u)
  | failure (k : ErrKind) (res rlen : Word16) : Ends i s (fail k { s with res := res, rlen := rlen })
  | refusal (c : RefuseCode) : Ends i s (refuse c s)

namespace Ends

variable {i : Instr} {s t : State} {r : Result}

theorem of_writeV (rd : VReg) (v : Bits) : Ends i s (succeed (s.writeV rd v)) :=
  .success _ (.inl (s.writeV_diag rd v))

theorem of_finishCorrection (rd : VReg) (c : Bits × Byte × HamClass) (hsynd : writesSynd i = true) :
    Ends i s (finishCorrection rd c s) :=
  .correction _ _ _ hsynd (s.writeV_diag rd c.1)

/-- A check before the end: refused, or on to the rest of the command. -/
theorem ite_refuse {p : Prop} [Decidable p] (c : RefuseCode) (h : Ends i s r) :
    Ends i s (if p then refuse c s else r) := by
  split
  · exact .refusal c
  · exact h

theorem of_deliverPayload (dst : Addr) (P : List Byte) (consumed : Nat) (ham : Option (Byte × HamClass))
    (hsynd : writesSynd i = true) : Ends i s (deliverPayload dst P consumed ham s) := by
  cases ham with
  | none => exact .success _ (.inl rfl)
  | some c => exact .correction _ _ _ hsynd rfl

theorem of_decodeCopy (dst : Addr) (copy : List Byte) (consumed : Nat) (hsynd : writesSynd i = true) :
    Ends i s (decodeCopy dst copy consumed s) := by
  rcases decodeCopy_cases dst copy consumed s with
    ⟨-, h⟩ | ⟨-, -, h⟩ | ⟨-, h⟩ | ⟨P, ham, -, ⟨-, h⟩ | ⟨-, h⟩⟩ <;> rw [h]
  · exact .failure _ _ _
  · exact .refusal _
  · exact .failure _ _ _
  · exact .refusal _
  · exact .of_deliverPayload dst P consumed ham hsynd

/-- No end clears a DIAG bit, so only DIAG_CLR does. -/
theorem keeps_diag_bit (h : Ends i s (.next t)) (hi : i ≠ .diagClr) {k : Nat} (hk : s.diag.getLsbD k = true) :
    t.diag.getLsbD k = true := by
  generalize hr : (Host.Outcome.next t : Result) = r at h
  cases h with
  | success u hdiag =>
    cases hr
    obtain hkept | ⟨hclr, -⟩ := hdiag
    · exact hkept ▸ hk
    · exact absurd hclr hi
  | correction syn cls u _ hdiag =>
    cases hr
    rw [← hdiag] at hk
    dsimp only
    split
    · exact hk
    · exact orDiag_keeps_bit _ hk
  | failure k res rlen => cases hr; exact orDiag_keeps_bit _ hk
  | refusal c => cases hr; exact orDiag_keeps_bit _ hk

end Ends

/-- Every command ends in one of these ways, after the checks of its rule. -/
theorem exec_ends {i : Instr} (hi : isCommand i = true) (s : State) : Ends i s (exec i s) := by
  cases i with
  | nop => exact .success s (.inl rfl)
  | diagClr => exact .success _ (.inr ⟨rfl, rfl⟩)
  | bvClr rd | crcDiv rd _ => exact .of_writeV rd _
  | bvGet _ _ | crcRem _ => exact .success _ (.inl rfl)
  | bvSet rd _ _ | bvXor rd _ _ | crcAppend rd _ | hamAppend rd _ => exact .ite_refuse _ (.of_writeV rd _)
  | bvLoad rd _ _ => exact .ite_refuse _ (.ite_refuse _ (.of_writeV rd _))
  | bvStore _ _ | hamParity _ | frmComplete _ _ | frmSend _ _ => exact .ite_refuse _ (.success _ (.inl rfl))
  | frmEncode _ _ _ => exact .ite_refuse _ (.ite_refuse _ (.ite_refuse _ (.success _ (.inl rfl))))
  | hamCorrect rd _ => exact .ite_refuse _ (.of_finishCorrection rd _ rfl)
  | crcVerify rs =>
    simp only [exec, execCrcVerify]
    split
    · exact .success _ (.inl rfl)
    · exact .failure .crcMismatch 0 s.rlen
  | hamVerify rd rs =>
    refine .ite_refuse _ ?_
    split
    · exact .failure .tooShort s.res s.rlen
    · exact .of_finishCorrection rd _ rfl
  | frmDecode src n dst =>
    refine .ite_refuse _ ?_
    split
    · exact .failure _ 0 0
    · exact .of_decodeCopy dst _ _ rfl
  | wireStart | wireStop | wireEsc | wireData _ => cases hi

/-! ### DIAG along a step -/

/-- Every instruction but DIAG_CLR keeps every DIAG bit that is set; a wire byte does not touch DIAG. -/
theorem exec_keeps_diag_bit {i : Instr} {s t : State} (h : exec i s = .next t) (hi : i ≠ .diagClr) {k : Nat}
    (hk : s.diag.getLsbD k = true) : t.diag.getLsbD k = true := by
  cases hcmd : isCommand i with
  | true => exact (h ▸ exec_ends hcmd s).keeps_diag_bit hi hk
  | false =>
    obtain ⟨x, hx⟩ := exec_eq_readWireByte hcmd
    cases (hx s).symm.trans h
    exact hk

/-- Of the host's moves only a reset and a presented DIAG_CLR can clear a DIAG bit. -/
theorem runMove_keeps_diag_bit {m : HostMove} {s t : State} (h : runMove m s = .next t) {k : Nat}
    (hk : s.diag.getLsbD k = true) :
    t.diag.getLsbD k = true ∨ m = .reset ∨ ∃ p, m = .present p ∧ decode p = some .diagClr := by
  cases m with
  | read | writeMem | takeTx | newBuffer => cases h; exact .inl hk
  | reset => exact .inr (.inl rfl)
  | present p =>
    cases hp : decode p with
    | none =>
      cases (runMove_illegal p s hp).symm.trans h
      exact .inl (orDiag_keeps_bit _ hk)
    | some i =>
      by_cases hi : i = .diagClr
      · exact .inr (.inr ⟨p, rfl, hi ▸ hp⟩)
      · exact .inl (exec_keeps_diag_bit ((runMove_present p i s hp).symm.trans h) hi hk)

end Sys2Proof.Machine

section
open Sys2Proof Sys2Proof.Machine

/-- Settles O16: a word of the opcode other than DIAG_CLR is illegal, so refused; and no end of another command, nor
another move of the host, clears a DIAG bit. -/
theorem diagClearedOnlyByDiagClrOrReset : Obligations.DiagClearedOnlyByDiagClrOrReset := by
  have hword : decodeCmd 0x0100000000000000 = some .diagClr := by decide
  refine ⟨fun s => rfl, hword, fun w hop hne s rest hs => ?_, fun s t k h hset hclear => ?_⟩
  · have hnone : decode (.cmd w) = none := decodeCmd_eq_none_of_no_operands hword rfl hop hne
    exact ⟨_, (step_cons s _ rest hs).trans (runMove_illegal _ _ hnone), rfl⟩
  · obtain rfl | ⟨m, rest, hs, hm⟩ := step_cases h
    · exact absurd hset (by simp [hclear])
    · obtain hkept | rfl | ⟨p, rfl, hp⟩ := runMove_keeps_diag_bit hm hset
      · exact absurd hkept (by simp [hclear])
      · exact .inl (by rw [hs]; rfl)
      · exact .inr ⟨p, by rw [hs]; rfl, hp⟩

/-- Settles O20: the one word of the opcode is 0, and NOP is a success from the state as it is. -/
theorem nopClearsStatusOnly : Obligations.NopClearsStatusOnly := by
  have hword : decodeCmd 0x0000000000000000 = some .nop := by decide
  exact ⟨hword, fun w hop hne => decodeCmd_eq_none_of_no_operands hword rfl hop hne, succeed_eq⟩

end

namespace Sys2Proof.Machine

/-! ## Outcomes (60_exceptions.md R290 to R302)

`Ends` read backwards: STATUS, DIAG and the rest of the state after a command, by the way it ended. `Ends` allows every
command to fail with any results; `Recorded` says which commands do, and with which. -/

/-- Every instruction answers a next state. -/
theorem exists_exec_eq_next (i : Instr) (s : State) : ∃ t, exec i s = .next t := by
  obtain ⟨e, -, hexec⟩ := exec_hasEffect i s
  exact ⟨_, hexec s (.refl i s)⟩

/-- Every move of the host answers a next state; an illegal word is refused. -/
theorem exists_runMove_eq_next (m : HostMove) (s : State) : ∃ t, runMove m s = .next t := by
  cases m with
  | read | writeMem | takeTx | reset | newBuffer => exact ⟨_, rfl⟩
  | present p =>
    cases hp : decode p with
    | none => exact ⟨_, runMove_illegal p s hp⟩
    | some i => rw [runMove_present p i s hp]; exact exists_exec_eq_next i s

theorem exists_step_eq_next (s : State) : ∃ t, step s = .next t := by
  cases hh : s.host with
  | nil => exact ⟨s, step_nil s hh⟩
  | cons m rest => rw [step_cons s m rest hh]; exact exists_runMove_eq_next m _

/-! ### The codes and bits of the outcomes -/

theorem orDiag_getLsbD_self (d : Byte) {k : Nat} (hk : k < 8) : (orDiag d k).getLsbD k = true := by
  simp [orDiag_getLsbD d k k hk]

theorem State.err_of_status {t : State} {e : Nat} {cls : HamClass} (h : t.status = statusWord e cls) (he : e < 16) :
    t.err = e := by
  rw [State.err, h]
  exact (statusWord_fields e cls he).1

theorem ErrKind.code_bounds (k : ErrKind) : 1 ≤ k.code ∧ k.code ≤ 5 := by cases k <;> decide

theorem RefuseCode.eight_le_code (c : RefuseCode) : 8 ≤ c.code := by cases c <;> decide

theorem ErrKind.code_injective : Function.Injective ErrKind.code := by
  intro k k'; cases k <;> cases k' <;> decide

/-- What a success leaves in STATUS and DIAG: ERR 0 with a class, and DIAG as before, cleared by DIAG_CLR, or with
HAM_SYNDROME for a correction with a nonzero syndrome (60_exceptions.md R290, R292). -/
def Succeeded (i : Instr) (s t : State) : Prop :=
  (∃ cls : HamClass, t.status = statusWord 0 cls) ∧
    (t.diag = s.diag ∨ (i = .diagClr ∧ t.diag = 0) ∨ (writesSynd i = true ∧ t.synd ≠ 0 ∧ t.diag = s.diag ||| 0x04))

/-- What the error kind `k` leaves of the state: all but STATUS, DIAG, RES and RLEN (60_exceptions.md R297). -/
def Failed (k : ErrKind) (s t : State) : Prop :=
  t = { s with status := BitVec.ofNat 16 k.code, diag := s.diag ||| BitVec.ofNat 8 (2 ^ k.diagBit)
               res := t.res, rlen := t.rlen }

/-- What a refusal leaves of the state: all but STATUS and DIAG (60_exceptions.md R296). -/
def Refused (c : RefuseCode) (s t : State) : Prop :=
  t = { s with status := BitVec.ofNat 16 c.code, diag := s.diag ||| 0x40 }

section
variable {i : Instr} {s t : State}

theorem Succeeded.err (h : Succeeded i s t) : t.err = 0 :=
  h.1.elim fun _ hst => State.err_of_status hst (by decide)

theorem Failed.status {k : ErrKind} (h : Failed k s t) : t.status = BitVec.ofNat 16 k.code := congrArg State.status h

theorem Failed.diag {k : ErrKind} (h : Failed k s t) : t.diag = orDiag s.diag k.diagBit := congrArg State.diag h

theorem Failed.err {k : ErrKind} (h : Failed k s t) : t.err = k.code :=
  State.err_of_status (cls := .noError) h.status k.code_lt

theorem Refused.status {c : RefuseCode} (h : Refused c s t) : t.status = BitVec.ofNat 16 c.code :=
  congrArg State.status h

theorem Refused.diag {c : RefuseCode} (h : Refused c s t) : t.diag = orDiag s.diag diagRefused := congrArg State.diag h

theorem Refused.err {c : RefuseCode} (h : Refused c s t) : t.err = c.code :=
  State.err_of_status (cls := .noError) h.status c.code_lt

/-- The three outcomes of R290, from the way the command ends. -/
theorem Ends.outcome (h : Ends i s (.next t)) : Succeeded i s t ∨ (∃ k, Failed k s t) ∨ ∃ c, Refused c s t := by
  generalize hr : (Host.Outcome.next t : Result) = r at h
  cases h with
  | success u hdiag =>
    cases hr
    exact .inl ⟨⟨.noError, rfl⟩, hdiag.imp_right .inl⟩
  | correction syn cls u hsynd hdiag =>
    cases hr
    refine .inl ⟨⟨cls, rfl⟩, ?_⟩
    by_cases h0 : syn = 0
    · exact .inl ((if_pos h0).trans hdiag)
    · exact .inr (.inr ⟨hsynd, h0, (if_neg h0).trans (by rw [hdiag]; rfl)⟩)
  | failure k res rlen => cases hr; exact .inr (.inl ⟨k, rfl⟩)
  | refusal c => cases hr; exact .inr (.inr ⟨c, rfl⟩)

theorem exec_outcome (hi : isCommand i = true) (h : exec i s = .next t) :
    Succeeded i s t ∨ (∃ k, Failed k s t) ∨ ∃ c, Refused c s t :=
  Ends.outcome (h ▸ exec_ends hi s)

/-- A code from 8 on is a refusal. -/
theorem exec_refused (hi : isCommand i = true) (h : exec i s = .next t) (h8 : 8 ≤ t.err) : ∃ c, Refused c s t := by
  obtain hs | ⟨k, hk⟩ | hc := exec_outcome hi h
  · exact absurd hs.err (by omega)
  · have := k.code_bounds
    exact absurd hk.err (by omega)
  · exact hc

/-- A code from 1 to 5 is an error kind. -/
theorem exec_failed (hi : isCommand i = true) (h : exec i s = .next t) (h1 : 1 ≤ t.err) (h5 : t.err ≤ 5) :
    ∃ k, Failed k s t := by
  obtain hs | hk | ⟨c, hc⟩ := exec_outcome hi h
  · exact absurd hs.err (by omega)
  · exact hk
  · have := c.eight_le_code
    exact absurd hc.err (by omega)

/-! ### What is recorded for an error kind (60_exceptions.md R291) -/

/-- What RES and RLEN hold after the command `i` reports the error kind `k` from `s`, and that `i` is a command that can
(60_exceptions.md R291, column "what is recorded"). -/
inductive Records (s : State) : Instr → ErrKind → Word16 → Word16 → Prop
  | crcVerify (rs : VSrc) : Records s (.crcVerify rs) .crcMismatch 0 s.rlen
  | hamVerify (rd : VReg) (rs : VSrc) : Records s (.hamVerify rd rs) .tooShort s.res s.rlen
  | frmScan {src n : Addr} {k : ErrKind} (dst : Addr) (hscan : scan (s.mem.readBytes src.toNat n.toNat) = .fail k) :
      Records s (.frmDecode src n dst) k 0 0
  | frmCopy {src n : Addr} {k : ErrKind} {copy : List Byte} {consumed : Nat} (dst : Addr)
      (hscan : scan (s.mem.readBytes src.toNat n.toNat) = .ok copy consumed) (hk : k = .crcMismatch ∨ k = .tooShort) :
      Records s (.frmDecode src n dst) k (count16 consumed) 0

/-- If the result reports an error kind, the command `i` from `s` can, and it holds what is recorded for that kind. -/
def Recorded (i : Instr) (s : State) (r : Result) : Prop :=
  ∀ t k, r = .next t → t.err = k.code → Records s i k t.res t.rlen

namespace Recorded
variable {r : Result}

theorem of_fail {k : ErrKind} {res rlen : Word16} (h : Records s i k res rlen) :
    Recorded i s (fail k { s with res := res, rlen := rlen }) := by
  rintro t k' ⟨⟩ herr
  obtain rfl : k = k' :=
    ErrKind.code_injective ((State.err_of_status (cls := .noError) rfl k.code_lt).symm.trans herr)
  exact h

/-- A result whose code is that of no error kind records nothing. -/
theorem of_status {u : State} {e : Nat} {cls : HamClass} (hu : u.status = statusWord e cls) (he : e < 16)
    (hnone : ∀ k : ErrKind, k.code ≠ e) : Recorded i s (.next u) := by
  rintro t k ⟨⟩ herr
  exact absurd (herr.symm.trans (State.err_of_status hu he)) (hnone k)

theorem of_success {u : State} {cls : HamClass} (hu : u.status = statusWord 0 cls) : Recorded i s (.next u) :=
  of_status hu (by decide) fun k => by have := k.code_bounds; omega

theorem of_refuse (c : RefuseCode) : Recorded i s (refuse c s) :=
  of_status (cls := .noError) rfl c.code_lt fun k => by have := k.code_bounds; have := c.eight_le_code; omega

/-- A check before the end: refused, or on to the rest of the command. -/
theorem ite_refuse {p : Prop} [Decidable p] (c : RefuseCode) (h : Recorded i s r) :
    Recorded i s (if p then refuse c s else r) := by
  split
  · exact .of_refuse c
  · exact h

/-- Steps 4 to 8 of FRM_DECODE report only CrcMismatch and TooShort (43_framing.md R243). -/
theorem of_decodeCopy {src n : Addr} {copy : List Byte} {consumed : Nat} (dst : Addr)
    (hscan : scan (s.mem.readBytes src.toNat n.toNat) = .ok copy consumed) :
    Recorded (.frmDecode src n dst) s (decodeCopy dst copy consumed s) := by
  rcases decodeCopy_cases dst copy consumed s with
    ⟨-, h⟩ | ⟨-, -, h⟩ | ⟨-, h⟩ | ⟨P, ham, -, ⟨-, h⟩ | ⟨-, h⟩⟩ <;> rw [h]
  · exact .of_fail (.frmCopy dst hscan (.inr rfl))
  · exact .of_refuse _
  · exact .of_fail (.frmCopy dst hscan (.inl rfl))
  · exact .of_refuse _
  · cases ham with
    | none => exact .of_success rfl
    | some c => exact .of_success rfl

end Recorded

/-- Only three commands fail, each with the results it records. -/
theorem exec_recorded (hi : isCommand i = true) (s : State) : Recorded i s (exec i s) := by
  cases i with
  | nop | diagClr | bvClr _ | bvGet _ _ | crcDiv _ _ | crcRem _ => exact .of_success rfl
  | bvSet _ _ _ | bvStore _ _ | bvXor _ _ _ | crcAppend _ _ | hamParity _ | hamCorrect _ _ | hamAppend _ _
  | frmComplete _ _ | frmSend _ _ => exact .ite_refuse _ (.of_success rfl)
  | bvLoad _ _ _ => exact .ite_refuse _ (.ite_refuse _ (.of_success rfl))
  | frmEncode _ _ _ => exact .ite_refuse _ (.ite_refuse _ (.ite_refuse _ (.of_success rfl)))
  | crcVerify rs =>
    simp only [exec, execCrcVerify]
    split
    · exact .of_success rfl
    · exact .of_fail (.crcVerify rs)
  | hamVerify rd rs =>
    refine .ite_refuse _ ?_
    split
    · exact .of_fail (.hamVerify rd rs)
    · exact .of_success rfl
  | frmDecode src n dst =>
    refine .ite_refuse _ ?_
    split
    · next hscan => exact .of_fail (.frmScan dst hscan)
    · next hscan => exact .of_decodeCopy dst hscan
  | wireStart | wireStop | wireEsc | wireData _ => cases hi

end

end Sys2Proof.Machine

section
open Sys2Proof Sys2Proof.Machine

/-- Settles O8: waiting, every move of the host and every instruction answer a next state. -/
theorem everyStepAnswersNext : Obligations.EveryStepAnswersNext := exists_step_eq_next

/-- Settles O12: the three outcomes of a command, each with its word in STATUS and its bit in DIAG. -/
theorem commandEndsInOneOfThreeWays : Obligations.CommandEndsInOneOfThreeWays := by
  intro i s hi
  obtain ⟨t, h⟩ := exists_exec_eq_next i s
  refine ⟨t, h, ?_⟩
  obtain ⟨⟨cls, hst⟩, -⟩ | ⟨k, hk⟩ | ⟨c, hc⟩ := exec_outcome hi h
  · exact .inl ⟨cls, by simpa [statusWord] using hst⟩
  · exact .inr (.inl ⟨k, hk.status, hk.diag ▸ orDiag_getLsbD_self _ (k.diagBit_lt.trans (by decide))⟩)
  · exact .inr (.inr ⟨c, hc.status, hc.diag ▸ orDiag_getLsbD_self _ (k := diagRefused) (by decide)⟩)

/-- Settles O13: an illegal word is refused as it stands, a command with a code from 8 on has ended in a refusal, and
every state has a next one. -/
theorem refusalChangesOnlyStatusAndRefused : Obligations.RefusalChangesOnlyStatusAndRefused := by
  intro w rest s t hh h h8
  refine ⟨?_, exists_step_eq_next t⟩
  rw [step_cons s _ rest hh] at h
  cases hw : decodeCmd w with
  | none =>
    cases (runMove_illegal (.cmd w) _ hw).symm.trans h
    exact ⟨.illegalCommand, rfl⟩
  | some i =>
    have hi : isCommand i = true := (encode_of_decodeCmd hw).1
    exact exec_refused hi ((runMove_present (.cmd w) i _ hw).symm.trans h) h8

/-- Settles O14: a code from 1 to 5 is that of a failed check, and only three commands fail, with what they record. -/
theorem errorKindLeavesDataUnchanged : Obligations.ErrorKindLeavesDataUnchanged := by
  intro i s t hi h h1 h5
  obtain ⟨k, hk⟩ := exec_failed hi h h1 h5
  refine ⟨k, hk, ?_⟩
  have hrec := exec_recorded hi s t k h hk.err
  generalize t.res = res, t.rlen = rlen at hrec
  cases hrec with
  | crcVerify rs => exact .inl ⟨rs, rfl, rfl, rfl, rfl⟩
  | hamVerify rd rs => exact .inr (.inl ⟨rd, rs, rfl, rfl, rfl, rfl⟩)
  | frmScan dst hscan => exact .inr (.inr ⟨_, _, dst, rfl, rfl, .inl ⟨hscan, rfl⟩⟩)
  | frmCopy dst hscan hkind => exact .inr (.inr ⟨_, _, dst, rfl, rfl, .inr ⟨_, _, hscan, hkind, rfl⟩⟩)

/-- Settles O15: DIAG by the outcome of the command. -/
theorem commandSetsAtMostOneDiagBit : Obligations.CommandSetsAtMostOneDiagBit := by
  intro i s t hi h
  obtain hs | ⟨k, hk⟩ | ⟨c, hc⟩ := exec_outcome hi h
  · obtain hkept | hclr | ⟨hsynd, h0, hset⟩ := hs.2
    · exact .inr (.inl hkept)
    · exact .inl hclr
    · exact .inr (.inr (.inr (.inr ⟨hsynd, hs.err, h0, hset⟩)))
  · exact .inr (.inr (.inl ⟨k, hk.err, hk.diag⟩))
  · exact .inr (.inr (.inr (.inl ⟨c, hc.err, hc.diag⟩)))

end

namespace Sys2Proof.Machine

/-! ## Chunks with a safe trailer (70_reset_and_hazards.md R351, R354)

The escape and the stop tag both have bit 6 set. Up to 7 bytes, no codeword position reaches 64, so bit 6 of the HAM
parity is clear. Under CRC the trailer of one byte is 00 and the byte itself. -/

/-- A vector too short for its positions to reach `2^k` leaves check bit `k` clear (42_hamming.md R204). -/
theorem getLsbD_hamParity_of_short {v : Bits} {k : Nat} (hk : k < 8) (hv : v.length + k + 1 ≤ 2 ^ k) :
    (hamParity v).getLsbD k = false := by
  rw [getLsbD_hamParity v hk]
  refine xorOver_eq_false fun d hd => ?_
  have hd' := List.mem_range.mp hd
  rw [Nat.testBit_lt_two_pow (hamPos_lt_two_pow (by omega)), Bool.false_and]

theorem ne_tags_of_bit_six_clear {x : Byte} (h : x.getLsbD 6 = false) : x ≠ Config.escTag ∧ x ≠ Config.stopTag := by
  constructor <;> (rintro rfl; exact absurd h (by decide))

theorem trailerSafe_ham_iff (P : List Byte) :
    TrailerSafe .ham P ↔ hamParity (bits P) ≠ Config.escTag ∧ hamParity (bits P) ≠ Config.stopTag :=
  List.forall_mem_singleton

/-- The CRC trailer of one byte (41_crc.md R181): the even fold has no byte, the odd fold only this one. -/
theorem trailer_crc_singleton (x : Byte) : trailer .crc [x] = [0, x] := by
  rw [crcTrailerIsTheAlternateFold [x]]
  simp [alternateFold]

end Sys2Proof.Machine

section
open Sys2Proof Sys2Proof.Machine

/-- Settles O55: the parity of at most 56 bits has bit 6 clear, and 00, the other trailer byte under CRC, is no tag. -/
theorem shortChunksAndTrailerSafety : Obligations.ShortChunksAndTrailerSafety := by
  refine ⟨fun P _ h7 => ?_, fun x => ?_⟩
  · have hbits : (bits P).length + 6 + 1 ≤ 2 ^ 6 := by rw [length_bits]; omega
    exact (trailerSafe_ham_iff P).mpr (ne_tags_of_bit_six_clear (getLsbD_hamParity_of_short (by decide) hbits))
  · rw [TrailerSafe, trailer_crc_singleton, List.forall_mem_cons, List.forall_mem_singleton]
    exact and_iff_right (by decide)

/-- Settles O7: the step is the move itself, carried out with the rest of the moves pending. -/
theorem stepCarriesOutHostMoves : Obligations.StepCarriesOutHostMoves := by
  intro s rest
  refine ⟨step_nil s, fun q hq => step_cons s _ rest hq, fun a x hw => ?_, fun n hn => step_cons s _ rest hn,
    fun hr => ⟨_, step_cons s _ rest hr, rfl, rfl⟩, fun hb => step_cons s _ rest hb⟩
  exact ⟨_, step_cons s _ rest hw, Memory.read_write_same s.mem _ x, fun b => Memory.read_write_other s.mem _ b x⟩

end
